-- ==== Sys2Proof/Word.lean ====
section
/-! DEFINITION. The units of the machine: the 32-bit word, the byte seen on IN and OUT, and the eight register names. -/

namespace Sys2Proof

/-- A 32-bit unsigned value: register contents, memory words, segment ids, offsets and instruction words (R5, R13). -/
abbrev Word := BitVec 32

/-- A value 0 to 255, seen only on the IN and OUT interfaces (R9, R10). -/
abbrev Byte := BitVec 8

/-- The eight registers r0 to r7 (R20, R80): a 3-bit index has exactly eight values, so no index is out of range (R21). -/
inductive Reg where
  | r0 | r1 | r2 | r3 | r4 | r5 | r6 | r7
  deriving DecidableEq, Repr

/-- The all-ones word 2^32 - 1, which `in` writes at end of stream (R121). -/
def Word.allOnes : Word := 0xFFFFFFFF#32

end Sys2Proof
end

