-- ==== Sys2Proof/Syntax.lean ====
section
/-! DEFINITION. The instruction set (R74): one constructor per row of spec/opcode_table.json, its operands named by the
fields that carry them (R76), in the order of the assembler syntax of R80. -/

namespace Sys2Proof

/-- The fourteen instructions. -/
inductive Instr where
  /-- `cmov rA, rB, rC`: conditional move (R100). -/
  | cmov (ra rb rc : Reg)
  /-- `sload rA, rB, rC`: segmented load (R112). -/
  | sload (ra rb rc : Reg)
  /-- `sstore rA, rB, rC`: segmented store (R113). -/
  | sstore (ra rb rc : Reg)
  /-- `add rA, rB, rC` (R101). -/
  | add (ra rb rc : Reg)
  /-- `mul rA, rB, rC` (R102). -/
  | mul (ra rb rc : Reg)
  /-- `div rA, rB, rC` (R103). -/
  | div (ra rb rc : Reg)
  /-- `nand rA, rB, rC` (R104). -/
  | nand (ra rb rc : Reg)
  /-- `halt` (R130). -/
  | halt
  /-- `map rB, rC`: map a segment (R110). -/
  | map (rb rc : Reg)
  /-- `unmap rC`: unmap a segment (R111). -/
  | unmap (rc : Reg)
  /-- `out rC`: output a byte (R120). -/
  | out (rc : Reg)
  /-- `in rC`: input a byte (R121); `in` is a word of Lean. -/
  | inp (rc : Reg)
  /-- `loadp rB, rC`: load program and jump (R131). -/
  | loadp (rb rc : Reg)
  /-- `loadi rL, imm`: load immediate (R105); `imm` is the assembled operand zext_32(VL) of R73. -/
  | loadi (rl : Reg) (imm : Word)
  deriving DecidableEq, Repr

end Sys2Proof
end

