-- ==== Sys2Proof/WellFormed.lean ====
section
/-! DEFINITION. The one check an instruction can fail: a literal that does not fit the 25 bits of VL. -/

namespace Sys2Proof

/-- The largest literal of `loadi` (R73). -/
def maxLiteral : Word := 0x01FFFFFF#32

/-- An instruction the machine has. Every register index names a register (R73), so only the literal is checked:
"An immediate above 0x1FFFFFF is an assembly error, not a truncation" (R80). -/
def Instr.wellFormed : Instr → Bool
  | .loadi _ imm => decide (imm ≤ maxLiteral)
  | .cmov _ _ _ => true
  | .sload _ _ _ => true
  | .sstore _ _ _ => true
  | .add _ _ _ => true
  | .mul _ _ _ => true
  | .div _ _ _ => true
  | .nand _ _ _ => true
  | .halt => true
  | .map _ _ => true
  | .unmap _ => true
  | .out _ => true
  | .inp _ => true
  | .loadp _ _ => true

/-- `Instr.wellFormed` as a proposition. -/
abbrev Instr.WellFormed (i : Instr) : Prop := i.wellFormed = true

end Sys2Proof
end

