-- ==== Sys2Proof/Decode.lean ====
section
/-! DEFINITION. The instruction decoder ("Instruction Codec", R70 to R79) and the encoder (R80), both over one table of
opcode numbers and one binding of fields to operands. -/

namespace Sys2Proof

/-- The fourteen operations OP selects (R74, R75), without operands. -/
inductive Op where
  | cmov | sload | sstore | add | mul | div | nand | halt | map | unmap | out | inp | loadp | loadi
  deriving DecidableEq, Repr

/-- Why a word is no instruction. -/
inductive DecodeError where
  /-- OP is 14 or 15 (R78); executing such a word is Fatal(InvalidOpcode). -/
  | invalidOpcode (op : BitVec 4)
  deriving DecidableEq, Repr

/-- OPMAP (R75). PRESUMED: the numbers are the ICFP 2006 "Universal Machine"'s, as the spec marks them (log entry 1). -/
def Op.number : Op → BitVec 4
  | .cmov => 0
  | .sload => 1
  | .sstore => 2
  | .add => 3
  | .mul => 4
  | .div => 5
  | .nand => 6
  | .halt => 7
  | .map => 8
  | .unmap => 9
  | .out => 10
  | .inp => 11
  | .loadp => 12
  | .loadi => 13

/-- The operations, in the opcode table's order. -/
def Op.all : List Op :=
  [.cmov, .sload, .sstore, .add, .mul, .div, .nand, .halt, .map, .unmap, .out, .inp, .loadp, .loadi]

/-- The operation with a given number, if any: 14 and 15 have none (R74, R78). -/
def Op.ofNumber (n : BitVec 4) : Option Op := Op.all.find? (fun o => o.number == n)

/-- The operation of an instruction. -/
def Instr.op : Instr → Op
  | .cmov _ _ _ => .cmov
  | .sload _ _ _ => .sload
  | .sstore _ _ _ => .sstore
  | .add _ _ _ => .add
  | .mul _ _ _ => .mul
  | .div _ _ _ => .div
  | .nand _ _ _ => .nand
  | .halt => .halt
  | .map _ _ => .map
  | .unmap _ => .unmap
  | .out _ => .out
  | .inp _ => .inp
  | .loadp _ _ => .loadp
  | .loadi _ _ => .loadi

/-- The register a 3-bit index names (R20). -/
def Reg.ofBits (b : BitVec 3) : Reg :=
  match b.toNat with
  | 0 => .r0
  | 1 => .r1
  | 2 => .r2
  | 3 => .r3
  | 4 => .r4
  | 5 => .r5
  | 6 => .r6
  | _ => .r7

/-- The 3-bit index of a register (R20). -/
def Reg.bits : Reg → BitVec 3
  | .r0 => 0
  | .r1 => 1
  | .r2 => 2
  | .r3 => 3
  | .r4 => 4
  | .r5 => 5
  | .r6 => 6
  | .r7 => 7

/-- The `width`-bit field of a word whose least significant bit is bit `lsb`: (word >> lsb) & ((1 << width) - 1) (R12, R71). -/
def bitField (w : Word) (lsb width : Nat) : BitVec width := BitVec.ofNat width (w.toNat >>> lsb)

/-- OP = w[31:28] (R71). -/
def fieldOP (w : Word) : BitVec 4 := bitField w 28 4

/-- RA = w[8:6] (R71). -/
def fieldRA (w : Word) : Reg := Reg.ofBits (bitField w 6 3)

/-- RB = w[5:3] (R71). -/
def fieldRB (w : Word) : Reg := Reg.ofBits (bitField w 3 3)

/-- RC = w[2:0] (R71). -/
def fieldRC (w : Word) : Reg := Reg.ofBits (bitField w 0 3)

/-- RL = w[27:25], format L only (R71). -/
def fieldRL (w : Word) : Reg := Reg.ofBits (bitField w 25 3)

/-- VL = w[24:0], format L only (R71). -/
def fieldVL (w : Word) : BitVec 25 := bitField w 0 25

/-- OPBIND (R76): the fields of `w` that carry the operands of `o`; every other bit is ignored (R77). PRESUMED, as the spec
marks it, but for load-immediate's (log entry 2). The literal is zero-extended to 32 bits (R73). -/
def decodeOperands (o : Op) (w : Word) : Instr :=
  match o with
  | .cmov => .cmov (fieldRA w) (fieldRB w) (fieldRC w)
  | .sload => .sload (fieldRA w) (fieldRB w) (fieldRC w)
  | .sstore => .sstore (fieldRA w) (fieldRB w) (fieldRC w)
  | .add => .add (fieldRA w) (fieldRB w) (fieldRC w)
  | .mul => .mul (fieldRA w) (fieldRB w) (fieldRC w)
  | .div => .div (fieldRA w) (fieldRB w) (fieldRC w)
  | .nand => .nand (fieldRA w) (fieldRB w) (fieldRC w)
  | .halt => .halt
  | .map => .map (fieldRB w) (fieldRC w)
  | .unmap => .unmap (fieldRC w)
  | .out => .out (fieldRC w)
  | .inp => .inp (fieldRC w)
  | .loadp => .loadp (fieldRB w) (fieldRC w)
  | .loadi => .loadi (fieldRL w) ((fieldVL w).setWidth 32)

/-- The decoder: total on all 2^32 words, one of the fourteen instructions or the invalid opcode (R79). -/
def decode (w : Word) : Except DecodeError Instr :=
  match Op.ofNumber (fieldOP w) with
  | some o => .ok (decodeOperands o w)
  | none => .error (.invalidOpcode (fieldOP w))

/-- A format R word, 0 in its unused bits 27:9: (OP << 28) | (RA << 6) | (RB << 3) | RC (R72, R80). -/
def wordR (op : BitVec 4) (ra rb rc : BitVec 3) : Word :=
  (op.setWidth 32 <<< 28) ||| (ra.setWidth 32 <<< 6) ||| (rb.setWidth 32 <<< 3) ||| rc.setWidth 32

/-- A format L word: (OP << 28) | (RL << 25) | imm (R72, R80). -/
def wordL (op : BitVec 4) (rl : BitVec 3) (imm : Word) : Word :=
  (op.setWidth 32 <<< 28) ||| (rl.setWidth 32 <<< 25) ||| imm

/-- The encoder, with 0 in every unused bit and unused field (R80). -/
def encode (i : Instr) : Word :=
  match i with
  | .cmov ra rb rc => wordR i.op.number ra.bits rb.bits rc.bits
  | .sload ra rb rc => wordR i.op.number ra.bits rb.bits rc.bits
  | .sstore ra rb rc => wordR i.op.number ra.bits rb.bits rc.bits
  | .add ra rb rc => wordR i.op.number ra.bits rb.bits rc.bits
  | .mul ra rb rc => wordR i.op.number ra.bits rb.bits rc.bits
  | .div ra rb rc => wordR i.op.number ra.bits rb.bits rc.bits
  | .nand ra rb rc => wordR i.op.number ra.bits rb.bits rc.bits
  | .halt => wordR i.op.number 0 0 0
  | .map rb rc => wordR i.op.number 0 rb.bits rc.bits
  | .unmap rc => wordR i.op.number 0 0 rc.bits
  | .out rc => wordR i.op.number 0 0 rc.bits
  | .inp rc => wordR i.op.number 0 0 rc.bits
  | .loadp rb rc => wordR i.op.number 0 rb.bits rc.bits
  | .loadi rl imm => wordL i.op.number rl.bits imm

/-- The word whose bits are the low `nbits` of `w` and 0 above: bit 0 is the least significant bit of the one word. -/
def tableWord (nbits w : Nat) : Word := BitVec.ofNat 32 (w % 2 ^ nbits)

/-- What the decoder reads from the opcode table's numbering of an instruction's bits. -/
def decodeTableWord (nbits w : Nat) : Option Instr :=
  match decode (tableWord nbits w) with
  | .ok i => some i
  | .error _ => none

end Sys2Proof
end

