-- ==== Sys2Proof/Config.lean ====
section
/-! DEFINITION. The parameters an implementation fixes (R6): the two capacity limits. The boot image and the input stream,
the other open parameters, are arguments of reset (Machine/Env.lean). -/

namespace Sys2Proof

/-- The capacity parameters of an implementation (R6): `maxSegments` is MAX_SEGMENTS, the largest number of entries the
segment table may hold; `memCapacity` is MEM_CAPACITY_WORDS, the largest total number of words held by all segments
together, `none` for unbounded. -/
structure Limits where
  maxSegments : Nat
  memCapacity : Option Nat
  deriving DecidableEq, Repr

/-- The defaults of R6: 2^32 table entries, memory unbounded. -/
def Limits.default : Limits := { maxSegments := 2 ^ 32, memCapacity := none }

/-- The range R6 gives MAX_SEGMENTS: 1 to 2^32. -/
abbrev Limits.Legal (l : Limits) : Prop := 1 ≤ l.maxSegments ∧ l.maxSegments ≤ 2 ^ 32

end Sys2Proof
end

