-- ==== Sys2Proof/Machine/State.lean ====
section
/-! DEFINITION. The state of the machine (10_state.md), the reasons a step can stop, and the state after reset. -/

namespace Sys2Proof.Machine

/-- The seven fatal conditions (R141). Each ends the run: the machine enters `Run.fatal` with it (R140). -/
inductive Cause where
  /-- The word fetched has OP = 14 or 15 (R78). -/
  | invalidOpcode
  /-- `div` with a divisor register that holds 0 (R103). -/
  | divideByZero
  /-- `out` of a value above 255 (R120). -/
  | outputRange
  /-- `sload`, `sstore` or `loadp` at an address that is not valid (R46). -/
  | invalidAccess
  /-- `unmap` of segment 0 or of an id that is not mapped (R52). -/
  | invalidUnmap
  /-- The fetch at an offset outside segment 0 (R91). -/
  | fetchOutOfRange
  /-- `map` or `loadp` beyond a capacity parameter (R49). -/
  | resourceExhausted
  deriving DecidableEq, Repr

/-- The run state (R27). -/
inductive Run where
  | running
  | halted
  | fatal (c : Cause)
  deriving DecidableEq, Repr

/-- The eight general registers (R20). -/
structure Regs where
  r0 : Word
  r1 : Word
  r2 : Word
  r3 : Word
  r4 : Word
  r5 : Word
  r6 : Word
  r7 : Word
  deriving DecidableEq, Repr

/-- All registers 0 (R32). -/
def Regs.zero : Regs := { r0 := 0#32, r1 := 0#32, r2 := 0#32, r3 := 0#32, r4 := 0#32, r5 := 0#32, r6 := 0#32, r7 := 0#32 }

/-- A segment (R24): its length, a 32-bit value (R43), and its words. `cells` lists the words that are not 0 with their
offsets, offsets strictly rising; a word that is not listed is 0, which is what a segment holds when it is created (R47).
The list form is the model's (log entry 12). -/
structure Segment where
  len   : Word
  cells : List (Nat × Word)
  deriving DecidableEq, Repr

/-- The segment of length 0, which an unmapped table entry holds (R52). -/
def Segment.empty : Segment := { len := 0#32, cells := [] }

/-- The segmented memory controller's state: the segment table `seg`, indexed by segment id (R23), and the free list
`free` (R25), a stack whose top is the head of the list (log entry 13). -/
structure Memory where
  seg  : List Segment
  free : List Word
  deriving DecidableEq, Repr

/-- What the environment has presented on IN since reset (R9): the bytes, oldest first, and whether it has said that the
stream ends after them. The model's own form of the parameter INPUT of R6 (log entry 7). -/
structure InStream where
  bytes : List Byte
  ended : Bool
  deriving DecidableEq, Repr

/-- Nothing presented yet, and the stream not ended. -/
def InStream.empty : InStream := { bytes := [], ended := false }

/-- The state of the block (10_state.md) and of the environment's side of IN and OUT (R30). -/
structure State where
  /-- x[0] to x[7] (R20). -/
  regs    : Regs
  /-- The instruction pointer, a word offset in segment 0 (R22). -/
  ip      : Word
  /-- The segment table and the free list (R23, R25). -/
  mem     : Memory
  /-- The run state (R27). -/
  run     : Run
  /-- The offset of the instruction that raised the fatal condition; meaningful only when `run` is fatal (R31). -/
  faultIp : Word
  /-- The destination of an `in` whose request is not answered yet, the one wait state (R152; log entry 8). -/
  waiting : Option Reg
  /-- What the environment has presented on IN (R6, R9; log entry 7). -/
  input   : InStream
  /-- How many bytes of the input have been consumed (R30). -/
  inpos   : Nat
  /-- Whether an `in` has been answered end of stream since reset (R30). -/
  eos     : Bool
  /-- The bytes emitted on OUT since reset, oldest first (R30). -/
  outlog  : List Byte
  /-- The capacity parameters, which no step changes (R6; log entry 9). -/
  limits  : Limits
  deriving DecidableEq, Repr

/-- The reasons for which the host's outcome `fault` would stop a run. NONE: every condition on which this machine stops is
a fatal condition, whose entry the spec describes (R140) and which is therefore a next state (log entry 3, safe). -/
inductive Fault where
  deriving DecidableEq, Repr

/-- The reasons for which the host's outcome `refused` stops a run. -/
inductive Refusal where
  /-- Raised by an arm of `exec` for an instruction that has no meaning yet; no arm raises it now. Safe. -/
  | notModelled (mnemonic : String)
  deriving DecidableEq, Repr

/-- The machine after reset (R32) with the empty boot image, which R174 admits: segment 0 exists with length 0. Every other
boot image and input is `applyReset` (Machine/Env.lean; log entry 11). `faultIp` is unspecified in the spec: DESIGN CHOICE
(log entry 5). -/
def State.reset : State where
  regs := Regs.zero
  ip := 0#32
  mem := { seg := [Segment.empty], free := [] }
  run := .running
  faultIp := 0#32
  waiting := none
  input := InStream.empty
  inpos := 0
  eos := false
  outlog := []
  limits := Limits.default

end Sys2Proof.Machine
end

