-- ==== Sys2Proof/Machine/Ops.lean ====
section
/-! DEFINITION. The shared operations: the words of a segment, the controller's five operations (20_memory.md), the fatal
mechanism (60_exceptions.md) and the two interfaces an instruction reaches, OUT and IN (43_io.md). An operation that can
raise a fatal condition answers `Except Cause`. -/

namespace Sys2Proof.Machine

/-! ### The words of a segment -/

/-- The word at an offset of a list of cells; a word that is not listed is 0 (R24, R47). -/
def cellsRead : List (Nat × Word) → Nat → Word
  | [], _ => 0#32
  | (a, w) :: t, k => if k = a then w else cellsRead t k

/-- The cells with the word at offset `k` made `v`, in canonical form: offsets rise, no word listed is 0. -/
def cellsWrite : List (Nat × Word) → Nat → Word → List (Nat × Word)
  | [], k, v => if v = 0#32 then [] else [(k, v)]
  | (a, w) :: t, k, v =>
    if k < a then (if v = 0#32 then (a, w) :: t else (k, v) :: (a, w) :: t)
    else if k = a then (if v = 0#32 then t else (k, v) :: t)
    else (a, w) :: cellsWrite t k v

/-- The cells of a sequence of words placed from offset `k` on. -/
def cellsOf : Nat → List Word → List (Nat × Word)
  | _, [] => []
  | k, w :: ws => if w = 0#32 then cellsOf (k + 1) ws else (k, w) :: cellsOf (k + 1) ws

/-- The word of a segment at an offset, whether or not the offset is within its length. -/
def Segment.word (g : Segment) (o : Word) : Word := cellsRead g.cells o.toNat

/-- The segment with one word changed and its length kept (R51). -/
def Segment.setWord (g : Segment) (o v : Word) : Segment := { g with cells := cellsWrite g.cells o.toNat v }

/-- A segment of `n` words, each 0 (R47). -/
def Segment.zeros (n : Word) : Segment := { len := n, cells := [] }

/-- The canonical form of a segment: offsets strictly rising, no 0 listed, every offset within the length. -/
abbrev Segment.Wf (g : Segment) : Prop :=
  g.cells.Pairwise (fun a b => a.1 < b.1) ∧ ∀ c ∈ g.cells, c.2 ≠ 0#32 ∧ c.1 < g.len.toNat

/-! ### The segmented memory controller -/

/-- seg[i], the empty segment outside the table. -/
def Memory.segment (m : Memory) (i : Word) : Segment := m.seg.getD i.toNat Segment.empty

/-- The memory with seg[i] replaced. -/
def Memory.setSegment (m : Memory) (i : Word) (g : Segment) : Memory := { m with seg := m.seg.set i.toNat g }

/-- mapped(i): an entry of the table that is not in the free list (R44). -/
abbrev Memory.Mapped (m : Memory) (i : Word) : Prop := i.toNat < m.seg.length ∧ i ∉ m.free

/-- len(i) (R43). -/
def Memory.len (m : Memory) (i : Word) : Word := (m.segment i).len

/-- valid(i, o), the machine's only protection (R46). -/
abbrev Memory.Valid (m : Memory) (i o : Word) : Prop := m.Mapped i ∧ o < m.len i

/-- The total number of words held by all segments together (R49). -/
def Memory.totalWords (m : Memory) : Nat := (m.seg.map (fun g => g.len.toNat)).sum

/-- Whether a total number of words would exceed MEM_CAPACITY_WORDS (R49). -/
def Limits.exceededBy (l : Limits) (total : Nat) : Bool :=
  match l.memCapacity with
  | none => false
  | some c => decide (c < total)

/-- resources_exhausted(n) (R49): no table entry is left for a new id, or the words would exceed the capacity. -/
def Memory.exhausted (m : Memory) (l : Limits) (n : Word) : Bool :=
  (m.free.isEmpty && decide (l.maxSegments ≤ m.seg.length)) || Limits.exceededBy l (m.totalWords + n.toNat)

/-- Allocate(n) (R47): the most recently freed id, else the table length before the append (C2); `n` zero words. -/
def Memory.allocate (m : Memory) (l : Limits) (n : Word) : Except Cause (Word × Memory) :=
  if m.exhausted l n then .error .resourceExhausted
  else
    match m.free with
    | i :: rest => .ok (i, { seg := m.seg.set i.toNat (Segment.zeros n), free := rest })
    | [] => .ok (BitVec.ofNat 32 m.seg.length, { seg := m.seg ++ [Segment.zeros n], free := [] })

/-- MemRead(i:o, 1) (R50). -/
def Memory.read (m : Memory) (i o : Word) : Except Cause Word :=
  if m.Valid i o then .ok ((m.segment i).word o) else .error .invalidAccess

/-- MemWrite(i:o, 1, v) (R51). -/
def Memory.write (m : Memory) (i o v : Word) : Except Cause Memory :=
  if m.Valid i o then .ok (m.setSegment i ((m.segment i).setWord o v)) else .error .invalidAccess

/-- Deallocate(i) (R52): the entry becomes the empty segment and the id is pushed on the free list. -/
def Memory.deallocate (m : Memory) (i : Word) : Except Cause Memory :=
  if i = 0#32 ∨ ¬ m.Mapped i then .error .invalidUnmap
  else .ok { seg := m.seg.set i.toNat Segment.empty, free := i :: m.free }

/-- LoadProgram(i) (R53): segment 0 becomes a copy of segment `i`. The capacity is compared with the words held after the
replacement (log entry 10). -/
def Memory.loadProgram (m : Memory) (l : Limits) (i : Word) : Except Cause Memory :=
  if ¬ m.Mapped i then .error .invalidAccess
  else if Limits.exceededBy l (m.setSegment 0#32 (m.segment i)).totalWords then .error .resourceExhausted
  else .ok (m.setSegment 0#32 (m.segment i))

/-- The controller's invariants (R25, R26, R43): segment 0 exists, every id fits a word, every segment is in canonical form,
and the free list has no repeats, no 0, and only ids of the table whose segments are empty. -/
abbrev Memory.Wf (m : Memory) : Prop :=
  0 < m.seg.length ∧ m.seg.length ≤ 2 ^ 32 ∧ (∀ g ∈ m.seg, g.Wf) ∧ m.free.Nodup ∧
    m.free.all (fun i => decide (i ≠ 0#32 ∧ m.seg[i.toNat]? = some Segment.empty)) = true

/-! ### The fatal mechanism: the machine's only exception, with no handler and no return (R140, R145) -/

/-- The machine stopped by a fatal condition of the instruction at offset `a` (R140): nothing else changes. -/
def State.fatalAt (s : State) (a : Word) (c : Cause) : State := { s with run := .fatal c, faultIp := a }

/-- raise Fatal(c) during dispatch (R140), on the state before any write of the instruction: `ip` has been advanced, so the
instruction's own offset is one below it (R22, R92; log entry 6). -/
def State.raise (s : State) (c : Cause) : State := s.fatalAt (s.ip - 1#32) c

/-- The end of an instruction: the state it made, or, if an operation raised a fatal condition, the state BEFORE the
instruction's writes with that condition raised (R90, R95). -/
def State.finish (s : State) (r : Except Cause State) : Host.Outcome State Fault Refusal :=
  match r with
  | .ok t => .next t
  | .error c => .next (s.raise c)

/-! ### Control, OUT and IN -/

/-- `ip <- a` (R14). -/
def State.setIp (s : State) (a : Word) : State := { s with ip := a }

/-- The state with the controller's state replaced. -/
def State.setMem (s : State) (m : Memory) : State := { s with mem := m }

/-- `run <- r`. -/
def State.setRun (s : State) (r : Run) : State := { s with run := r }

/-- OutputByte(b) (R10, R14). -/
def State.outputByte (s : State) (b : Byte) : State := { s with outlog := s.outlog ++ [b] }

/-- What the environment says to one request on IN (R9). -/
inductive InAnswer where
  | byte (b : Byte)
  | endOfStream
  | notYet
  deriving DecidableEq, Repr

/-- InputByte() (R121): INPUT[inpos] while there is such a byte, end of stream once the stream has ended or has been
answered so before (R9, R30); no answer while the environment has presented neither (R152). -/
def State.inputByte (s : State) : InAnswer :=
  if s.eos then .endOfStream
  else
    match s.input.bytes[s.inpos]? with
    | some b => .byte b
    | none => if s.input.ended then .endOfStream else .notYet

/-- The `in` cycle with destination `r`, started or resumed (R121): it completes if the environment answers; otherwise the
machine waits and nothing but `waiting` records it (R152). -/
def State.takeInput (s : State) (r : Reg) : State :=
  match s.inputByte with
  | .byte b => { s.setReg r (b.setWidth 32) with inpos := s.inpos + 1, waiting := none }
  | .endOfStream => { s.setReg r Word.allOnes with eos := true, waiting := none }
  | .notYet => { s with waiting := some r }

end Sys2Proof.Machine
end

