-- ==== Sys2Proof/Machine/Alu.lean ====
section
/-! DEFINITION. The register and arithmetic instructions (41_alu.md): cmov, add, mul, div, nand, loadi. The ALU is unsigned
32-bit and sets no flag: the machine has none (R29, R106). -/

namespace Sys2Proof.Machine

/-- `cmov rA, rB, rC` (R100): any nonzero condition moves; otherwise nothing is written. -/
def execCmov (ra rb rc : Reg) (s : State) : Host.Outcome State Fault Refusal :=
  .next (if s.get rc ≠ 0#32 then s.setReg ra (s.get rb) else s)

/-- `add rA, rB, rC` (R101). -/
def execAdd (ra rb rc : Reg) (s : State) : Host.Outcome State Fault Refusal :=
  .next (s.setReg ra (s.get rb + s.get rc))

/-- `mul rA, rB, rC` (R102). -/
def execMul (ra rb rc : Reg) (s : State) : Host.Outcome State Fault Refusal :=
  .next (s.setReg ra (s.get rb * s.get rc))

/-- The quotient of R103: divisor 0 is fatal, otherwise the floor of the quotient of the two naturals. -/
def quotient (a b : Word) : Except Cause Word :=
  if b = 0#32 then .error .divideByZero else .ok (a / b)

/-- `div rA, rB, rC` (R103). -/
def execDiv (ra rb rc : Reg) (s : State) : Host.Outcome State Fault Refusal :=
  s.finish ((quotient (s.get rb) (s.get rc)).map (s.setReg ra))

/-- `nand rA, rB, rC` (R104). -/
def execNand (ra rb rc : Reg) (s : State) : Host.Outcome State Fault Refusal :=
  .next (s.setReg ra (~~~ (s.get rb &&& s.get rc)))

/-- `loadi rL, imm` (R105). -/
def execLoadi (rl : Reg) (imm : Word) (s : State) : Host.Outcome State Fault Refusal :=
  .next (s.setReg rl imm)

end Sys2Proof.Machine
end

