-- ==== Sys2Proof/Machine/Control.lean ====
section
/-! DEFINITION. The control instructions (44_control.md): halt, loadp. -/

namespace Sys2Proof.Machine

/-- `halt` (R130). -/
def execHalt (s : State) : Host.Outcome State Fault Refusal :=
  .next (s.setRun .halted)

/-- The memory `loadp` leaves (R131): LoadProgram for a nonzero segment id, and nothing at all for 0. -/
def loadedMemory (s : State) (i : Word) : Except Cause Memory :=
  if i ≠ 0#32 then s.mem.loadProgram s.limits i else .ok s.mem

/-- `loadp rB, rC` (R131): segment id in RB, absolute target in RC; the target is not checked here. -/
def execLoadp (rb rc : Reg) (s : State) : Host.Outcome State Fault Refusal :=
  s.finish ((loadedMemory s (s.get rb)).map (fun m => (s.setMem m).setIp (s.get rc)))

end Sys2Proof.Machine
end

