-- ==== Sys2Proof/Machine/Io.lean ====
section
/-! DEFINITION. The input and output instructions (43_io.md): out, in. -/

namespace Sys2Proof.Machine

/-- The byte `out` emits for a register value (R120): above 255 is fatal, never truncated. -/
def outputValue (v : Word) : Except Cause Byte :=
  if 255#32 < v then .error .outputRange else .ok (v.setWidth 8)

/-- `out rC` (R120). -/
def execOut (rc : Reg) (s : State) : Host.Outcome State Fault Refusal :=
  s.finish ((outputValue (s.get rc)).map s.outputByte)

/-- `in rC` (R121): it completes at once if the environment has an answer, and waits otherwise (R152). -/
def execInp (rc : Reg) (s : State) : Host.Outcome State Fault Refusal :=
  .next (s.takeInput rc)

end Sys2Proof.Machine
end

