-- ==== Sys2Proof/Machine/Segments.lean ====
section
/-! DEFINITION. The segment instructions (42_segments.md): map, unmap, sload, sstore. Each is one call of a controller
operation. -/

namespace Sys2Proof.Machine

/-- `map rB, rC` (R110). -/
def execMap (rb rc : Reg) (s : State) : Host.Outcome State Fault Refusal :=
  s.finish ((s.mem.allocate s.limits (s.get rc)).map (fun p => (s.setMem p.2).setReg rb p.1))

/-- `unmap rC` (R111). -/
def execUnmap (rc : Reg) (s : State) : Host.Outcome State Fault Refusal :=
  s.finish ((s.mem.deallocate (s.get rc)).map s.setMem)

/-- `sload rA, rB, rC` (R112): segment id in RB, offset in RC. -/
def execSload (ra rb rc : Reg) (s : State) : Host.Outcome State Fault Refusal :=
  s.finish ((s.mem.read (s.get rb) (s.get rc)).map (s.setReg ra))

/-- `sstore rA, rB, rC` (R113): segment id in RA, offset in RB, value in RC. -/
def execSstore (ra rb rc : Reg) (s : State) : Host.Outcome State Fault Refusal :=
  s.finish ((s.mem.write (s.get ra) (s.get rb) (s.get rc)).map s.setMem)

end Sys2Proof.Machine
end

