-- ==== Sys2Proof/Machine/Dispatch.lean ====
section
/-! DEFINITION. The dispatch (R94): exactly one instruction rule runs per cycle. -/

namespace Sys2Proof.Machine

def exec (i : Instr) (s : State) : Host.Outcome State Fault Refusal :=
  match i with
  | .cmov ra rb rc => Sys2Proof.Machine.execCmov ra rb rc s
  | .sload ra rb rc => Sys2Proof.Machine.execSload ra rb rc s
  | .sstore ra rb rc => Sys2Proof.Machine.execSstore ra rb rc s
  | .add ra rb rc => Sys2Proof.Machine.execAdd ra rb rc s
  | .mul ra rb rc => Sys2Proof.Machine.execMul ra rb rc s
  | .div ra rb rc => Sys2Proof.Machine.execDiv ra rb rc s
  | .nand ra rb rc => Sys2Proof.Machine.execNand ra rb rc s
  | .halt => Sys2Proof.Machine.execHalt s
  | .map rb rc => Sys2Proof.Machine.execMap rb rc s
  | .unmap rc => Sys2Proof.Machine.execUnmap rc s
  | .out rc => Sys2Proof.Machine.execOut rc s
  | .inp rc => Sys2Proof.Machine.execInp rc s
  | .loadp rb rc => Sys2Proof.Machine.execLoadp rb rc s
  | .loadi rl imm => Sys2Proof.Machine.execLoadi rl imm s

end Sys2Proof.Machine
end

