-- ==== Sys2Proof/Machine/Cycle.lean ====
section
/-! DEFINITION. The parts of one fetch-decode-execute cycle (40_cycle.md) that the step puts together, and the placing of a
word where the next cycle fetches it. -/

namespace Sys2Proof.Machine

/-- Fetch: MemRead(0:ip, 1), whose failure is FetchOutOfRange (R50, R91). -/
def State.fetch (s : State) : Except Cause Word :=
  match s.mem.read 0#32 s.ip with
  | .ok w => .ok w
  | .error _ => .error .fetchOutOfRange

/-- Advance: ip <- (ip + 1) mod 2^32 (R22, R92). -/
def State.advance (s : State) : State := s.setIp (s.ip + 1#32)

/-- Decode and dispatch of the fetched word `w` on the advanced state (R90, R93, R94). -/
def dispatchWord (w : Word) (s : State) : Host.Outcome State Fault Refusal :=
  match decode w with
  | .ok i => exec i s
  | .error (.invalidOpcode _) => .next (s.raise .invalidOpcode)

/-- A new cycle (R90): a failed fetch changes nothing but the run state and the fault record, `ip` included (R91). -/
def newCycle (s : State) : Host.Outcome State Fault Refusal :=
  match s.fetch with
  | .ok w => dispatchWord w s.advance
  | .error c => .next (s.fatalAt s.ip c)

/-- What a running machine does: a new cycle, or, while an `in` waits, that cycle's next look at IN (R152). -/
def runningStep (s : State) : Host.Outcome State Fault Refusal :=
  match s.waiting with
  | none => newCycle s
  | some r => .next (s.takeInput r)

/-- Segment 0 with `w` at offset `a`, its length grown to hold it where it is shorter. -/
def Segment.placeWord (g : Segment) (a w : Word) : Segment :=
  Segment.setWord { g with len := if a < g.len then g.len else a + 1#32 } a w

/-- The memory with `w` at 0:a, segment 0 mapped. -/
def Memory.placeWord (m : Memory) (a w : Word) : Memory :=
  { seg := (match m.seg with
      | [] => [Segment.placeWord Segment.empty a w]
      | g :: rest => Segment.placeWord g a w :: rest)
    free := m.free.filter (fun i => i ≠ 0#32) }

/-- The state in which the next step is a new cycle that fetches `w` at the present `ip`. -/
def State.placeWord (s : State) (w : Word) : State :=
  { s with mem := s.mem.placeWord s.ip w, run := .running, waiting := none }

end Sys2Proof.Machine
end

