-- ==== Sys2Proof/Machine/Step.lean ====
section
/-! DEFINITION. The step function (R90). -/

namespace Sys2Proof.Machine

/-- One step. `Halted` and `Fatal` are terminal: "in them no cycle runs, no state changes" (R27), so a step there answers
the same state (log entry 4). -/
def step (s : State) : Host.Outcome State Fault Refusal :=
  match s.run with
  | .running => runningStep s
  | .halted => .next s
  | .fatal _ => .next s

/-- `s` with the instruction whose bits are `w` stored at 0:ip and the machine ready to fetch it. For the words of a boot
image this stands for the host's load (log entry 11). Offset 0xFFFFFFFF is never valid (R43), so an `ip` there can hold
no word. -/
def State.withFetchWord (s : State) (nbits w : Nat) : State := s.placeWord (tableWord nbits w)

end Sys2Proof.Machine
end

