-- ==== Sys2Proof/Machine/Env.lean ====
section
/-! DEFINITION. The host's and the environment's side of the four interfaces (R7 to R11) and reset (R170): acts from outside
the machine, each a plain function beside the step. -/

namespace Sys2Proof.Machine

/-- The code of a fatal cause on STATUS (R141). -/
def Cause.code : Cause → Nat
  | .invalidOpcode => 1
  | .divideByZero => 2
  | .outputRange => 3
  | .invalidAccess => 4
  | .invalidUnmap => 5
  | .fetchOutOfRange => 6
  | .resourceExhausted => 7

/-- What the block shows on STATUS (R11, R31): the fault record only beside a cause. -/
inductive Status where
  | running
  | halted
  | fatal (code : Nat) (faultIp : Word)
  deriving DecidableEq, Repr

/-- STATUS (R11). -/
def State.status (s : State) : Status :=
  match s.run with
  | .running => .running
  | .halted => .halted
  | .fatal c => .fatal c.code s.faultIp

/-- A boot image: a word sequence of length 0 to 2^32 - 1 (R6, R174). -/
structure BootImage where
  words : List Word
  fits  : words.length < 2 ^ 32
  deriving DecidableEq, Repr

/-- A segment that holds a sequence of words, word `i` at offset `i` (R8). -/
def Segment.ofWords (ws : List Word) : Segment := { len := BitVec.ofNat 32 ws.length, cells := cellsOf 0 ws }

/-- Reset (R170, R171): from any state every piece of state takes its value of R32, segment 0 from the boot image on BOOT;
`input` is the environment's stream for the fresh run. Only the implementation's parameters stay. -/
def applyReset (boot : BootImage) (input : InStream) (s : State) : State where
  regs := Regs.zero
  ip := 0#32
  mem := { seg := [Segment.ofWords boot.words], free := [] }
  run := .running
  faultIp := State.reset.faultIp
  waiting := none
  input := input
  inpos := 0
  eos := false
  outlog := []
  limits := s.limits

/-- The environment presents one more byte on IN (R9); after it has ended the stream it presents none. -/
def State.presentByte (s : State) (b : Byte) : State :=
  { s with input := if s.input.ended then s.input else { s.input with bytes := s.input.bytes ++ [b] } }

/-- The environment says that the stream ends after the bytes presented (R9). -/
def State.endInput (s : State) : State := { s with input := { s.input with ended := true } }

end Sys2Proof.Machine
end

