-- ==== Sys2Proof/Safety.lean ====
section
/-! DEFINITION. What counts as a good run (R145, R176), the machine's invariant (R26), and the terms in which claims say what
an instruction leaves unchanged. -/

namespace Sys2Proof.Machine

/-- A run that ended well: "a faulted run is never a good final state" (R145). -/
abbrev State.EndedWell (s : State) : Prop := s.run = .halted

/-- The machine has not been stopped by a fatal condition. -/
def State.Safe (s : State) : Prop := ∀ c, s.run ≠ .fatal c

/-- The machine's invariant: the controller's (R25, R26, R43), the legal parameters and the table within them (R6, R49), the
input position within the bytes presented and end of stream only at the end of an ended stream (R9, R30), and a wait only
while running (R152). -/
abbrev State.Inv (s : State) : Prop :=
  s.mem.Wf ∧ s.limits.Legal ∧ s.mem.seg.length ≤ s.limits.maxSegments ∧ s.inpos ≤ s.input.bytes.length ∧
    (s.eos = true → s.input.ended = true ∧ s.inpos = s.input.bytes.length) ∧
    (s.waiting ≠ none → s.run = .running)

/-- Memory is unchanged: the free list, the table's length, every mapping and length, and what a read of any address answers. -/
def MemorySame (s t : State) : Prop :=
  t.mem.free = s.mem.free ∧ t.mem.seg.length = s.mem.seg.length ∧ (∀ i, t.mem.len i = s.mem.len i) ∧
    ∀ i o, t.mem.read i o = s.mem.read i o

/-- Every register but `d` is unchanged. -/
def OtherRegsSame (d : Reg) (s t : State) : Prop := ∀ q, q ≠ d → t.get q = s.get q

/-- Every register is unchanged. -/
def RegsSame (s t : State) : Prop := ∀ q, t.get q = s.get q

/-- The run state, the wait state and the parameters are unchanged. The fault record has a statement of its own, for all
instructions together (FaultRecordIsWrittenOnlyByFatal). -/
def ControlSame (s t : State) : Prop := t.run = s.run ∧ t.waiting = s.waiting ∧ t.limits = s.limits

/-- The environment's side of IN and OUT is unchanged. -/
def IoSame (s t : State) : Prop :=
  t.input = s.input ∧ t.inpos = s.inpos ∧ t.eos = s.eos ∧ t.outlog = s.outlog

/-- The frame of an instruction that writes the register `d` and nothing else. -/
def OnlyRegister (d : Reg) (s t : State) : Prop :=
  OtherRegsSame d s t ∧ t.ip = s.ip ∧ MemorySame s t ∧ ControlSame s t ∧ IoSame s t

/-- What the fatal condition `c` leaves of a state in dispatch (R140): the run state tells it, and every register, memory, IN
and OUT are as they were. Its `ip` and fault record have a statement of their own (FaultRecordIsWrittenOnlyByFatal). -/
def StoppedBy (c : Cause) (s t : State) : Prop :=
  t.run = .fatal c ∧ RegsSame s t ∧ MemorySame s t ∧ t.waiting = s.waiting ∧ t.limits = s.limits ∧ IoSame s t

/-- The one register an instruction may write (R21). -/
def destination : Instr → Option Reg
  | .cmov ra _ _ => some ra
  | .sload ra _ _ => some ra
  | .sstore _ _ _ => none
  | .add ra _ _ => some ra
  | .mul ra _ _ => some ra
  | .div ra _ _ => some ra
  | .nand ra _ _ => some ra
  | .halt => none
  | .map rb _ => some rb
  | .unmap _ => none
  | .out _ => none
  | .inp rc => some rc
  | .loadp _ _ => none
  | .loadi rl _ => some rl

/-- A new cycle that fetches the word `w` begins at `s`: the machine runs, no `in` waits, and 0:ip holds `w` (R90, R91). -/
abbrev Fetches (s : State) (w : Word) : Prop :=
  s.run = .running ∧ s.waiting = none ∧ s.mem.read 0#32 s.ip = .ok w

end Sys2Proof.Machine
end

