-- ==== Sys2Proof/Certificates/Slice0/Obligations.lean ====
section
/-! DEFINITION. The statements for the provers. Each is about every state, boot image, input stream and capacity parameter it
does not name; the terms OnlyRegister, StoppedBy, MemorySame, Fetches and the like are Safety.lean's. -/

open Sys2Proof Sys2Proof.Machine

/-! ### Reset and boot -/

/-- R8: BOOT goes verbatim into segment 0, the free list is empty, the registers and `ip` are 0. -/
def Obligations.ResetPlacesBootImage : Prop :=
  ∀ (boot : BootImage) (input : InStream) (s : State),
    let t := applyReset boot input s
    (∀ r, t.get r = 0#32) ∧ t.ip = 0#32 ∧ t.mem.free = [] ∧ t.mem.seg.length = 1 ∧
      (t.mem.len 0#32).toNat = boot.words.length ∧
      ∀ o w : Word, boot.words[o.toNat]? = some w → t.mem.read 0#32 o = .ok w

/-- R32, R170 (decision D13; log entries 5, 7 and 11): reset starts a fresh run whatever the machine did before. -/
def Obligations.ResetStartsFreshRun : Prop :=
  ∀ (boot : BootImage) (input : InStream) (s : State),
    let t := applyReset boot input s
    t.run = .running ∧ t.waiting = none ∧ t.input = input ∧ t.inpos = 0 ∧ t.eos = false ∧ t.outlog = [] ∧
      t.limits = s.limits ∧ ∀ s' : State, s'.limits = s.limits → applyReset boot input s' = t

/-- R174 (decisions D6, D9; log entry 11): the empty boot image is accepted, and the first fetch is fatal. -/
def Obligations.EmptyBootImageFaultsAtFirstFetch : Prop :=
  ∀ (boot : BootImage) (input : InStream) (s : State), boot.words = [] →
    ∃ t, step (applyReset boot input s) = .next t ∧ t.run = .fatal .fetchOutOfRange ∧ t.faultIp = 0#32 ∧ t.ip = 0#32

/-- The state after reset has the machine's invariant (R26, R32; the fields input, limits and faultIp are log entries 5, 7, 9). -/
def Obligations.ResetStateHasInvariant : Prop := State.reset.Inv

/-- Reset establishes the invariant for every boot image and every fresh input, from any state whose capacity parameters
are in R6's range. -/
def Obligations.EveryResetEstablishesInvariant : Prop :=
  ∀ (boot : BootImage) (input : InStream) (s : State), s.limits.Legal → (applyReset boot input s).Inv

/-! ### Decoding and encoding -/

/-- The decoder table of 95_test_vectors.md section 2.1, one word at least for each family (numbers and binding are general
knowledge, log entries 1 and 2). -/
def Obligations.WordsDecodeAsListed : Prop :=
  decode 0x00000053#32 = .ok (.cmov .r1 .r2 .r3) ∧ decode 0x3FFFFECA#32 = .ok (.add .r3 .r1 .r2) ∧
    decode 0xDFFFFFFF#32 = .ok (.loadi .r7 0x01FFFFFF#32) ∧ decode 0xD20001FF#32 = .ok (.loadi .r1 511#32) ∧
    decode 0x100001DD#32 = .ok (.sload .r7 .r3 .r5) ∧ decode 0x200000EE#32 = .ok (.sstore .r3 .r5 .r6) ∧
    decode 0x800001D1#32 = .ok (.map .r2 .r1) ∧ decode 0xAFFFFFF8#32 = .ok (.out .r0) ∧
    decode 0x7FFFFFFF#32 = .ok .halt ∧ decode 0xC0000010#32 = .ok (.loadp .r2 .r0)

/-- R70 to R76, R80: decoding the encoding of a well-formed instruction gives it back, with every operand at every value. -/
def Obligations.DecodeOfEncode : Prop := ∀ i : Instr, i.WellFormed → decode (encode i) = .ok i

/-- R73: what the decoder answers is well-formed: a literal is at most 0x01FFFFFF. -/
def Obligations.DecodedInstructionsAreWellFormed : Prop := ∀ (w : Word) (i : Instr), decode w = .ok i → i.WellFormed

/-- R77 (the spec's inference; the opcode numbers in the clauses, 7 halt, 8 map, 9 to 11 unmap, out and in, 12 loadp and 13
loadi, are R75's general knowledge, decision D1, log entry 1; operand binding: log entry 2): two words that differ only in bits their operation does not
use are the same instruction. -/
def Obligations.UnusedBitsAreIgnored : Prop :=
  ∀ w w' : Word,
    (w &&& 0xF00001FF#32 = w' &&& 0xF00001FF#32 → w.toNat / 2 ^ 28 ≠ 13 → decode w = decode w') ∧
      (w &&& 0xF000003F#32 = w' &&& 0xF000003F#32 → w.toNat / 2 ^ 28 = 8 ∨ w.toNat / 2 ^ 28 = 12 → decode w = decode w') ∧
      (w &&& 0xF0000007#32 = w' &&& 0xF0000007#32 → 9 ≤ w.toNat / 2 ^ 28 → w.toNat / 2 ^ 28 ≤ 11 → decode w = decode w') ∧
      (w &&& 0xF0000000#32 = w' &&& 0xF0000000#32 → w.toNat / 2 ^ 28 = 7 → decode w = decode w')

/-- R78: the words 0xE0000000 to 0xFFFFFFFF, and no others, are the invalid opcode; executing one is fatal and changes no
register, no memory and nothing of IN and OUT. -/
def Obligations.InvalidOpcodeWordsAreFatal : Prop :=
  (∀ w : Word, (∃ e, decode w = .error e) ↔ 0xE0000000#32 ≤ w) ∧
    ∀ (s : State) (w : Word), Fetches s w → 0xE0000000#32 ≤ w →
      ∃ t, step s = .next t ∧ t.run = .fatal .invalidOpcode ∧ RegsSame s t ∧ MemorySame s t ∧ IoSame s t

/-! ### The cycle -/

/-- R90, R94: a cycle that fetches a word runs the instruction it decodes to on the state with `ip` advanced by 1. -/
def Obligations.StepRunsDecodedInstruction : Prop :=
  ∀ (s : State) (w : Word) (i : Instr), Fetches s w → decode w = .ok i → step s = exec i (s.setIp (s.ip + 1#32))

/-- R91 (decision D6): a fetch outside segment 0 is fatal with `ip` and everything else unchanged. -/
def Obligations.FetchOutsideSegmentZeroIsFatal : Prop :=
  ∀ s : State, s.run = .running → s.waiting = none → ¬ s.mem.Valid 0#32 s.ip →
    ∃ t, step s = .next t ∧ t.run = .fatal .fetchOutOfRange ∧ t.faultIp = s.ip ∧ t.ip = s.ip ∧ RegsSame s t ∧
      MemorySame s t ∧ t.waiting = none ∧ t.limits = s.limits ∧ IoSame s t

/-- R27 (that the step answers the same state is the model's choice, log entry 4): Halted and Fatal are terminal. -/
def Obligations.TerminalStatesAreFinal : Prop := ∀ s : State, s.run ≠ .running → step s = .next s

/-- R140 (log entries 3 and 4): every step answers a next state: no instruction, word or state is refused or left out. -/
def Obligations.EveryStepAnswersNext : Prop := ∀ s : State, ∃ t, step s = .next t

/-- R31, R92, R140, R145 (decision D7): a step that stops the machine leaves every register, all memory and IN and OUT as
they were before the instruction; the fault record is the instruction's offset, at which segment 0 still holds the word,
and `ip` is advanced unless the fetch itself failed. -/
def Obligations.FatalStepsArePrecise : Prop :=
  ∀ (s t : State) (c : Cause), s.run = .running → step s = .next t → t.run = .fatal c →
    RegsSame s t ∧ MemorySame s t ∧ IoSame s t ∧ t.limits = s.limits ∧ t.faultIp = s.ip ∧
      (c = .fetchOutOfRange → t.ip = s.ip) ∧
      (c ≠ .fetchOutOfRange → t.ip = s.ip + 1#32 ∧ ∃ w, t.mem.read 0#32 t.faultIp = .ok w)

/-- R31, R92, R140 (decision D7; log entries 5 and 6): an instruction that raises a fatal condition records the offset it was
fetched from, one below the advanced `ip`, which stays; an instruction that raises none leaves the record alone. -/
def Obligations.FaultRecordIsWrittenOnlyByFatal : Prop :=
  ∀ (i : Instr) (s t : State), s.run = .running → exec i s = .next t →
    ((∃ c, t.run = .fatal c) → t.faultIp = s.ip - 1#32 ∧ t.ip = s.ip) ∧
      ((∀ c, t.run ≠ .fatal c) → t.faultIp = s.faultIp)

/-- R96: a running machine enters Halted exactly by fetching `halt`. -/
def Obligations.HaltedOnlyByHalt : Prop :=
  ∀ s t : State, s.run = .running → step s = .next t →
    (t.run = .halted ↔ ∃ w, Fetches s w ∧ decode w = .ok .halt)

/-- R143 (the spec's inference): which instruction can raise which fatal condition. -/
def Obligations.OnlyListedInstructionsRaise : Prop :=
  ∀ (i : Instr) (s t : State) (c : Cause), s.run = .running → exec i s = .next t → t.run = .fatal c →
    (c = .divideByZero ∧ ∃ ra rb rc, i = .div ra rb rc) ∨ (c = .outputRange ∧ ∃ rc, i = .out rc) ∨
      (c = .invalidAccess ∧ ((∃ ra rb rc, i = .sload ra rb rc) ∨ (∃ ra rb rc, i = .sstore ra rb rc) ∨
        ∃ rb rc, i = .loadp rb rc)) ∨
      (c = .invalidUnmap ∧ ∃ rc, i = .unmap rc) ∨
      (c = .resourceExhausted ∧ ((∃ rb rc, i = .map rb rc) ∨ ∃ rb rc, i = .loadp rb rc))

/-- R152 (decision D15, log entry 8): while an `in` waits and the environment has not answered, a step changes nothing. -/
def Obligations.WaitHoldsEverything : Prop :=
  ∀ (s : State) (r : Reg), s.run = .running → s.waiting = some r → s.eos = false → s.input.bytes.length ≤ s.inpos →
    s.input.ended = false → step s = .next s

/-- R121, R152 (decision D15, log entries 7 and 8): the environment's answer ends the wait: the next step completes the
`in` with the byte presented, or with the sentinel if the stream was ended; all other state survives the wait and its end:
the other registers, `ip`, all memory, the run state, the fault record, the limits and what was emitted. -/
def Obligations.AnswerEndsWait : Prop :=
  ∀ (s : State) (r : Reg), s.run = .running → s.waiting = some r → s.eos = false → s.inpos = s.input.bytes.length →
    s.input.ended = false →
    (∀ b : Byte, ∃ t, step (s.presentByte b) = .next t ∧ t.waiting = none ∧ (t.get r).toNat = b.toNat ∧
      t.inpos = s.inpos + 1 ∧ t.eos = false ∧ t.input = (s.presentByte b).input ∧ OtherRegsSame r s t ∧ t.ip = s.ip ∧
      MemorySame s t ∧ t.run = .running ∧ t.faultIp = s.faultIp ∧ t.limits = s.limits ∧ t.outlog = s.outlog) ∧
      ∃ t, step s.endInput = .next t ∧ t.waiting = none ∧ t.get r = 0xFFFFFFFF#32 ∧ t.inpos = s.inpos ∧ t.eos = true ∧
        t.input = s.endInput.input ∧ OtherRegsSame r s t ∧ t.ip = s.ip ∧ MemorySame s t ∧ t.run = .running ∧
        t.faultIp = s.faultIp ∧ t.limits = s.limits ∧ t.outlog = s.outlog

/-- R121, R152 (decision D15; log entry 8): while an `in` waits, a step is that `in` again on the same state: no new cycle
begins, and what the statements about `exec` say of `in` they say of the step that resumes it. -/
def Obligations.WaitingStepRunsTheInAgain : Prop :=
  ∀ (s : State) (r : Reg), s.run = .running → s.waiting = some r → step s = exec (.inp r) s

/-! ### The register and arithmetic instructions -/

/-- R100. -/
def Obligations.CmovMovesOnNonzero : Prop :=
  ∀ (ra rb rc : Reg) (s : State),
    (s.get rc ≠ 0#32 → ∃ t, exec (.cmov ra rb rc) s = .next t ∧ t.get ra = s.get rb ∧ OnlyRegister ra s t) ∧
      (s.get rc = 0#32 → exec (.cmov ra rb rc) s = .next s)

/-- R101. -/
def Obligations.AddIsModularSum : Prop :=
  ∀ (ra rb rc : Reg) (s : State), ∃ t, exec (.add ra rb rc) s = .next t ∧
    (t.get ra).toNat = ((s.get rb).toNat + (s.get rc).toNat) % 2 ^ 32 ∧ OnlyRegister ra s t

/-- R102. -/
def Obligations.MulIsModularProduct : Prop :=
  ∀ (ra rb rc : Reg) (s : State), ∃ t, exec (.mul ra rb rc) s = .next t ∧
    (t.get ra).toNat = ((s.get rb).toNat * (s.get rc).toNat) % 2 ^ 32 ∧ OnlyRegister ra s t

/-- R103: the floor of the quotient of the two naturals, or, for divisor 0, the fatal condition. -/
def Obligations.DivIsUnsignedQuotientOrFatal : Prop :=
  ∀ (ra rb rc : Reg) (s : State),
    (s.get rc ≠ 0#32 → ∃ t, exec (.div ra rb rc) s = .next t ∧
      (t.get ra).toNat = (s.get rb).toNat / (s.get rc).toNat ∧ OnlyRegister ra s t) ∧
      (s.get rc = 0#32 → ∃ t, exec (.div ra rb rc) s = .next t ∧ StoppedBy .divideByZero s t)

/-- R104: bit i of the result is not (bit i of a and bit i of b). -/
def Obligations.NandIsBitwise : Prop :=
  ∀ (ra rb rc : Reg) (s : State), ∃ t, exec (.nand ra rb rc) s = .next t ∧
    (∀ i, i < 32 → (t.get ra).getLsbD i = !((s.get rb).getLsbD i && (s.get rc).getLsbD i)) ∧ OnlyRegister ra s t

/-- R105: for every 25-bit literal, the zero-extended literal. -/
def Obligations.LoadiWritesZeroExtendedLiteral : Prop :=
  ∀ (rl : Reg) (vl : BitVec 25) (s : State), ∃ t, exec (.loadi rl (vl.setWidth 32)) s = .next t ∧
    (t.get rl).toNat = vl.toNat ∧ OnlyRegister rl s t

/-! ### The segment instructions -/

/-- R47, R110 (at a capacity limit: decision D8, log entry 9): a new segment of x[RC] words, each 0, under an id that was not
mapped: the top of the free list, or, if that is empty, the table's length; every other segment is as it was. -/
def Obligations.MapAllocatesZeroedSegment : Prop :=
  ∀ (rb rc : Reg) (s : State), s.mem.Wf → s.limits.Legal →
    ((s.mem.free = [] → s.mem.seg.length < s.limits.maxSegments) →
      (∀ c, s.limits.memCapacity = some c → s.mem.totalWords + (s.get rc).toNat ≤ c) →
      ∃ t, exec (.map rb rc) s = .next t ∧
        (t.get rb ≠ 0#32 ∧ ¬ s.mem.Mapped (t.get rb) ∧ t.mem.Mapped (t.get rb)) ∧
        (t.mem.len (t.get rb) = s.get rc ∧ ∀ o, o < s.get rc → t.mem.read (t.get rb) o = .ok 0#32) ∧
        (∀ j, j ≠ t.get rb → (t.mem.Mapped j ↔ s.mem.Mapped j) ∧ t.mem.len j = s.mem.len j ∧
          ∀ o, t.mem.read j o = s.mem.read j o) ∧
        ((s.mem.free = t.get rb :: t.mem.free ∧ t.mem.seg.length = s.mem.seg.length) ∨
          (s.mem.free = [] ∧ t.mem.free = [] ∧ (t.get rb).toNat = s.mem.seg.length ∧
            t.mem.seg.length = s.mem.seg.length + 1)) ∧
        OtherRegsSame rb s t ∧ t.ip = s.ip ∧ ControlSame s t ∧ IoSame s t) ∧
      (((s.mem.free = [] ∧ s.limits.maxSegments ≤ s.mem.seg.length) ∨
          ∃ c, s.limits.memCapacity = some c ∧ c < s.mem.totalWords + (s.get rc).toNat) →
        ∃ t, exec (.map rb rc) s = .next t ∧ StoppedBy .resourceExhausted s t)

/-- R52, R111 (decisions D4, D16): the segment is emptied and its id pushed on the free list, every access to it is
invalid afterwards; unmapping 0 or an id that is not mapped is fatal. -/
def Obligations.UnmapReleasesSegmentOrFatal : Prop :=
  ∀ (rc : Reg) (s : State),
    (s.get rc ≠ 0#32 → s.mem.Mapped (s.get rc) →
      ∃ t, exec (.unmap rc) s = .next t ∧ ¬ t.mem.Mapped (s.get rc) ∧ t.mem.len (s.get rc) = 0#32 ∧
        (∀ o, t.mem.read (s.get rc) o = .error .invalidAccess) ∧ t.mem.free = s.get rc :: s.mem.free ∧
        t.mem.seg.length = s.mem.seg.length ∧
        (∀ j, j ≠ s.get rc → t.mem.len j = s.mem.len j ∧ ∀ o, t.mem.read j o = s.mem.read j o) ∧
        RegsSame s t ∧ t.ip = s.ip ∧ ControlSame s t ∧ IoSame s t) ∧
      (s.get rc = 0#32 ∨ ¬ s.mem.Mapped (s.get rc) →
        ∃ t, exec (.unmap rc) s = .next t ∧ StoppedBy .invalidUnmap s t)

/-- R112: the word at x[RB]:x[RC], or, if that address is not valid, the fatal condition. -/
def Obligations.SloadReadsWordOrFatal : Prop :=
  ∀ (ra rb rc : Reg) (s : State),
    (s.mem.Valid (s.get rb) (s.get rc) → ∃ t, exec (.sload ra rb rc) s = .next t ∧
      s.mem.read (s.get rb) (s.get rc) = .ok (t.get ra) ∧ OnlyRegister ra s t) ∧
      (¬ s.mem.Valid (s.get rb) (s.get rc) →
        ∃ t, exec (.sload ra rb rc) s = .next t ∧ StoppedBy .invalidAccess s t)

/-- R51, R113: the word at x[RA]:x[RB] becomes x[RC] and every other word of memory reads as before, or, if that address is
not valid, the fatal condition. -/
def Obligations.SstoreWritesOneWordOrFatal : Prop :=
  ∀ (ra rb rc : Reg) (s : State), s.mem.Wf →
    (s.mem.Valid (s.get ra) (s.get rb) → ∃ t, exec (.sstore ra rb rc) s = .next t ∧
      t.mem.read (s.get ra) (s.get rb) = .ok (s.get rc) ∧
      (∀ i o, ¬ (i = s.get ra ∧ o = s.get rb) → t.mem.read i o = s.mem.read i o) ∧
      t.mem.free = s.mem.free ∧ t.mem.seg.length = s.mem.seg.length ∧ (∀ i, t.mem.len i = s.mem.len i) ∧
      RegsSame s t ∧ t.ip = s.ip ∧ ControlSame s t ∧ IoSame s t) ∧
      (¬ s.mem.Valid (s.get ra) (s.get rb) →
        ∃ t, exec (.sstore ra rb rc) s = .next t ∧ StoppedBy .invalidAccess s t)

/-- R25, R48, R52 (the spec's inference): the id unmapped last is the one the next `map` returns, and the segment reused
holds only 0 whatever it held before. -/
def Obligations.LastUnmappedIdIsReusedFirst : Prop :=
  ∀ (ra rb rc : Reg) (s : State), s.limits.memCapacity = none → s.get ra ≠ 0#32 → s.mem.Mapped (s.get ra) →
    ∃ t u, exec (.unmap ra) s = .next t ∧ exec (.map rb rc) t = .next u ∧ u.get rb = s.get ra ∧
      u.mem.free = s.mem.free ∧ ∀ o, o < s.get rc → u.mem.read (s.get ra) o = .ok 0#32

/-! ### The input and output instructions -/

/-- R120: a value 0 to 255 is appended to the bytes emitted, any other value is fatal and nothing is emitted. -/
def Obligations.OutEmitsByteOrFatal : Prop :=
  ∀ (rc : Reg) (s : State),
    ((s.get rc).toNat ≤ 255 → ∃ t b, exec (.out rc) s = .next t ∧ t.outlog = s.outlog ++ [b] ∧
      b.toNat = (s.get rc).toNat ∧ RegsSame s t ∧ t.ip = s.ip ∧ MemorySame s t ∧ ControlSame s t ∧
      t.input = s.input ∧ t.inpos = s.inpos ∧ t.eos = s.eos) ∧
      (256 ≤ (s.get rc).toNat → ∃ t, exec (.out rc) s = .next t ∧ StoppedBy .outputRange s t)

/-- R121, R30, R152 (decisions D12, D15; log entries 7 and 8): the next input byte zero-extended; all ones once the stream
has ended, and again ever after; a wait while the environment has said neither. -/
def Obligations.InReadsByteOrSentinelOrWaits : Prop :=
  ∀ (rc : Reg) (s : State),
    (∀ b : Byte, s.eos = false → s.input.bytes[s.inpos]? = some b →
      ∃ t, exec (.inp rc) s = .next t ∧ (t.get rc).toNat = b.toNat ∧ t.inpos = s.inpos + 1 ∧ t.eos = false ∧
        t.waiting = none ∧ OtherRegsSame rc s t ∧ t.ip = s.ip ∧ MemorySame s t ∧ t.run = s.run ∧ t.limits = s.limits ∧ t.input = s.input ∧ t.outlog = s.outlog) ∧
      (s.eos = true ∨ (s.input.bytes.length ≤ s.inpos ∧ s.input.ended = true) →
        ∃ t, exec (.inp rc) s = .next t ∧ t.get rc = 0xFFFFFFFF#32 ∧ t.inpos = s.inpos ∧ t.eos = true ∧
          t.waiting = none ∧ OtherRegsSame rc s t ∧ t.ip = s.ip ∧ MemorySame s t ∧ t.run = s.run ∧ t.limits = s.limits ∧ t.input = s.input ∧ t.outlog = s.outlog) ∧
      (s.eos = false → s.input.bytes.length ≤ s.inpos → s.input.ended = false →
        ∃ t, exec (.inp rc) s = .next t ∧ t.waiting = some rc ∧ RegsSame s t ∧ t.ip = s.ip ∧ MemorySame s t ∧
          t.run = s.run ∧ t.limits = s.limits ∧ IoSame s t)

/-! ### The control instructions -/

/-- R130. -/
def Obligations.HaltStopsTheRun : Prop :=
  ∀ s : State, ∃ t, exec .halt s = .next t ∧ t.run = .halted ∧ RegsSame s t ∧ t.ip = s.ip ∧ MemorySame s t ∧
    t.waiting = s.waiting ∧ t.limits = s.limits ∧ IoSame s t

/-- R53, R131 (the total compared with the capacity is log entry 10): with x[RB] = 0 only `ip` changes; otherwise segment 0
becomes a copy of segment x[RB], which stays as it was, and `ip` becomes x[RC] unchecked; a segment that is not mapped, or
a copy beyond the capacity, is fatal. -/
def Obligations.LoadpCopiesAndJumps : Prop :=
  ∀ (rb rc : Reg) (s : State), s.mem.Wf →
    (s.get rb = 0#32 → ∃ t, exec (.loadp rb rc) s = .next t ∧ t.ip = s.get rc ∧ MemorySame s t ∧ RegsSame s t ∧
      ControlSame s t ∧ IoSame s t) ∧
      (s.get rb ≠ 0#32 → s.mem.Mapped (s.get rb) →
        (∀ c, s.limits.memCapacity = some c →
          s.mem.totalWords + (s.mem.len (s.get rb)).toNat ≤ c + (s.mem.len 0#32).toNat) →
        ∃ t, exec (.loadp rb rc) s = .next t ∧ t.ip = s.get rc ∧ t.mem.len 0#32 = s.mem.len (s.get rb) ∧
          (∀ o, t.mem.read 0#32 o = s.mem.read (s.get rb) o) ∧
          (∀ j, j ≠ 0#32 → t.mem.len j = s.mem.len j ∧ ∀ o, t.mem.read j o = s.mem.read j o) ∧
          t.mem.free = s.mem.free ∧ t.mem.seg.length = s.mem.seg.length ∧ RegsSame s t ∧ ControlSame s t ∧
          IoSame s t) ∧
      (s.get rb ≠ 0#32 → ¬ s.mem.Mapped (s.get rb) →
        ∃ t, exec (.loadp rb rc) s = .next t ∧ StoppedBy .invalidAccess s t) ∧
      (s.get rb ≠ 0#32 → s.mem.Mapped (s.get rb) →
        (∃ c, s.limits.memCapacity = some c ∧
          c + (s.mem.len 0#32).toNat < s.mem.totalWords + (s.mem.len (s.get rb)).toNat) →
        ∃ t, exec (.loadp rb rc) s = .next t ∧ StoppedBy .resourceExhausted s t)

/-- R132 (the spec's inference): no instruction but `loadp` writes `ip`, which stays at the advanced value. -/
def Obligations.OnlyLoadpWritesIp : Prop :=
  ∀ (i : Instr) (s t : State), exec i s = .next t → (∀ rb rc, i ≠ .loadp rb rc) → t.ip = s.ip

/-! ### Rules about the whole machine -/

/-- R26, R43, R9, R30, R152: every step keeps the machine's invariant: segment 0 exists, segments are in canonical form, the
free list holds only unmapped, empty, nonzero ids without repeats, the table stays within MAX_SEGMENTS, the input position
within the bytes presented, and a wait is only ever while running. -/
def Obligations.EveryStepKeepsInvariant : Prop := ∀ s t : State, s.Inv → step s = .next t → t.Inv

/-- R9: what the environment does on IN keeps the invariant. -/
def Obligations.EnvironmentKeepsInvariant : Prop :=
  ∀ (s : State) (b : Byte), s.Inv → (s.presentByte b).Inv ∧ s.endInput.Inv

/-- R21 (operand binding: log entry 2): an instruction writes at most one register, its destination. -/
def Obligations.AtMostTheDestinationIsWritten : Prop :=
  ∀ (i : Instr) (s t : State) (r : Reg), exec i s = .next t → destination i ≠ some r → t.get r = s.get r

/-- R40: only sstore, map, unmap and loadp change memory. -/
def Obligations.OnlyFourInstructionsTouchMemory : Prop :=
  ∀ (i : Instr) (s t : State), exec i s = .next t → (∀ ra rb rc, i ≠ .sstore ra rb rc) → (∀ rb rc, i ≠ .map rb rc) →
    (∀ rc, i ≠ .unmap rc) → (∀ rb rc, i ≠ .loadp rb rc) → t.mem = s.mem

/-- R23 and the model's parameters (log entry 9): the segment table never shrinks, and no step changes the limits. -/
def Obligations.TableNeverShrinks : Prop :=
  ∀ s t : State, step s = .next t → s.mem.seg.length ≤ t.mem.seg.length ∧ t.limits = s.limits

/-- R24, R26 (the spec's inference): a mapped segment stays mapped, and every segment but 0 keeps its length, through every
instruction but an `unmap` that names it. -/
def Obligations.MappedUntilUnmapped : Prop :=
  ∀ (i : Instr) (s t : State) (j : Word), exec i s = .next t → s.mem.Mapped j →
    (∀ rc, i = .unmap rc → s.get rc ≠ j) → t.mem.Mapped j ∧ (j ≠ 0#32 → t.mem.len j = s.mem.len j)

/-- R49 (decision D8; log entries 9 and 10): a memory within the capacity stays within it. -/
def Obligations.CapacityIsKept : Prop :=
  ∀ (s t : State) (c : Nat), s.limits.memCapacity = some c → s.mem.totalWords ≤ c → step s = .next t →
    t.mem.totalWords ≤ c

/-- R10: the bytes emitted are exactly those of the `out` executions, in order: a step emits the value of the register of the
`out` it fetched, if that is at most 255, and otherwise nothing. -/
def Obligations.OutputFollowsOutInstructions : Prop :=
  ∀ s t : State, step s = .next t →
    (∀ w rc, Fetches s w → decode w = .ok (.out rc) → (s.get rc).toNat ≤ 255 →
      t.outlog = s.outlog ++ [BitVec.ofNat 8 (s.get rc).toNat]) ∧
      ((∀ w rc, Fetches s w → decode w = .ok (.out rc) → 256 ≤ (s.get rc).toNat) → t.outlog = s.outlog)

/-- R9 (decision D12 for the end of stream): a step consumes at most one input byte, the next one, into a register; the end
of stream, once answered, stays. -/
def Obligations.InputIsConsumedInOrder : Prop :=
  ∀ s t : State, step s = .next t →
    t.input = s.input ∧ (s.eos = true → t.eos = true) ∧
      (t.inpos = s.inpos ∨
        (t.inpos = s.inpos + 1 ∧ ∃ b r, s.input.bytes[s.inpos]? = some b ∧ (t.get r).toNat = b.toNat))

/-- R97: no instruction but `in` depends on what the environment presents on IN. -/
def Obligations.OnlyInDependsOnInput : Prop :=
  ∀ (i : Instr) (s t : State) (input : InStream), (∀ rc, i ≠ .inp rc) → exec i s = .next t →
    exec i { s with input := input } = .next { t with input := input }

/-- R62: a store to the word at the next instruction's offset is what the next step decodes and runs. -/
def Obligations.StoreIsSeenByNextFetch : Prop :=
  ∀ (s : State) (w : Word) (ra rb rc : Reg) (j : Instr), s.mem.Wf → Fetches s w → decode w = .ok (.sstore ra rb rc) →
    s.get ra = 0#32 → s.get rb = s.ip + 1#32 → s.mem.Valid 0#32 (s.ip + 1#32) → decode (s.get rc) = .ok j →
    ∃ t, step s = .next t ∧ step t = exec j (t.setIp (t.ip + 1#32))

/-- R11 (decision D14), R141 (the code numbers are the spec's decision D5): STATUS shows the run state, a fatal cause by its
code of R141's table beside the fault record. -/
def Obligations.StatusShowsRunState : Prop :=
  (∀ s : State, (s.status = .running ↔ s.run = .running) ∧ (s.status = .halted ↔ s.run = .halted) ∧
    ∀ c a, s.run = .fatal c ∧ s.faultIp = a ↔ s.status = .fatal c.code a) ∧
    Cause.code .invalidOpcode = 1 ∧ Cause.code .divideByZero = 2 ∧ Cause.code .outputRange = 3 ∧
    Cause.code .invalidAccess = 4 ∧ Cause.code .invalidUnmap = 5 ∧ Cause.code .fetchOutOfRange = 6 ∧
    Cause.code .resourceExhausted = 7

/-- The model's own placing of a word (log entry 11): the very next step runs the instruction placed, at every offset that
can hold a word (R43). -/
def Obligations.PlacedWordRunsNext : Prop :=
  ∀ (s : State) (nbits w : Nat) (i : Instr), s.mem.Wf → s.ip ≠ 0xFFFFFFFF#32 → decodeTableWord nbits w = some i →
    step (s.withFetchWord nbits w) = exec i ((s.withFetchWord nbits w).setIp (s.ip + 1#32))
end

