-- ==== Sys2Proof/Laws/Decode.lean ====
section
/-! SUPPORT. The fields of an encoded word, and the opcode table read back. -/

namespace Sys2Proof

theorem Reg.ofBits_bits (r : Reg) : Reg.ofBits r.bits = r := by
  cases r <;> rfl

theorem Reg.bits_ofBits (b : BitVec 3) : (Reg.ofBits b).bits = b := by
  revert b
  decide

theorem Op.ofNumber_number (o : Op) : Op.ofNumber o.number = some o := by
  cases o <;> rfl

theorem Op.number_of_ofNumber {n : BitVec 4} {o : Op} (h : Op.ofNumber n = some o) : o.number = n := by
  simpa using List.find?_some h

theorem Op.ofNumber_eq_none (n : BitVec 4) : Op.ofNumber n = none ↔ 14 ≤ n := by
  revert n
  decide

theorem bitField_eq (w : Word) (l n : Nat) : bitField w l n = w.extractLsb' l n := rfl

/-- A word of at most the largest literal has no bit above bit 24. -/
theorem getLsbD_of_le_maxLiteral {imm : Word} (h : imm ≤ maxLiteral) (j : Nat) (hj : 25 ≤ j) : imm.getLsbD j = false := by
  have hlt : imm.toNat < 2 ^ 25 := by
    have hle := h
    simp only [maxLiteral, BitVec.le_def] at hle
    simp at hle
    omega
  exact Nat.testBit_lt_two_pow (lt_of_lt_of_le hlt (Nat.pow_le_pow_right (by norm_num) hj))

theorem getElem_of_le_maxLiteral {imm : Word} (h : imm ≤ maxLiteral) (j : Nat) (hj : 25 ≤ j) (hlt : j < 32) :
    imm[j] = false := by
  rw [← BitVec.getLsbD_eq_getElem hlt]
  exact getLsbD_of_le_maxLiteral h j hj

theorem bitField_wordR_op (op : BitVec 4) (a b c : BitVec 3) : bitField (wordR op a b c) 28 4 = op := by
  rw [wordR, bitField_eq]
  ext i hi
  simp only [BitVec.getElem_extractLsb', BitVec.getLsbD_or, BitVec.getLsbD_shiftLeft, BitVec.getLsbD_setWidth]
  interval_cases i <;> simp

theorem bitField_wordR_ra (op : BitVec 4) (a b c : BitVec 3) : bitField (wordR op a b c) 6 3 = a := by
  rw [wordR, bitField_eq]
  ext i hi
  simp only [BitVec.getElem_extractLsb', BitVec.getLsbD_or, BitVec.getLsbD_shiftLeft, BitVec.getLsbD_setWidth]
  interval_cases i <;> simp

theorem bitField_wordR_rb (op : BitVec 4) (a b c : BitVec 3) : bitField (wordR op a b c) 3 3 = b := by
  rw [wordR, bitField_eq]
  ext i hi
  simp only [BitVec.getElem_extractLsb', BitVec.getLsbD_or, BitVec.getLsbD_shiftLeft, BitVec.getLsbD_setWidth]
  interval_cases i <;> simp

theorem bitField_wordR_rc (op : BitVec 4) (a b c : BitVec 3) : bitField (wordR op a b c) 0 3 = c := by
  rw [wordR, bitField_eq]
  ext i hi
  simp only [BitVec.getElem_extractLsb', BitVec.getLsbD_or, BitVec.getLsbD_shiftLeft, BitVec.getLsbD_setWidth]
  interval_cases i <;> simp

theorem bitField_wordR_unused (op : BitVec 4) (a b c : BitVec 3) : bitField (wordR op a b c) 9 19 = 0 := by
  rw [wordR, bitField_eq]
  ext i hi
  simp only [BitVec.getElem_extractLsb', BitVec.getLsbD_or, BitVec.getLsbD_shiftLeft, BitVec.getLsbD_setWidth]
  interval_cases i <;> simp

theorem bitField_wordL_op (op : BitVec 4) (rl : BitVec 3) {imm : Word} (h : imm ≤ maxLiteral) :
    bitField (wordL op rl imm) 28 4 = op := by
  have hz := getElem_of_le_maxLiteral h
  rw [wordL, bitField_eq]
  ext i hi
  simp only [BitVec.getElem_extractLsb', BitVec.getLsbD_or, BitVec.getLsbD_shiftLeft, BitVec.getLsbD_setWidth]
  interval_cases i <;> simp [hz]

theorem bitField_wordL_rl (op : BitVec 4) (rl : BitVec 3) {imm : Word} (h : imm ≤ maxLiteral) :
    bitField (wordL op rl imm) 25 3 = rl := by
  have hz := getElem_of_le_maxLiteral h
  rw [wordL, bitField_eq]
  ext i hi
  simp only [BitVec.getElem_extractLsb', BitVec.getLsbD_or, BitVec.getLsbD_shiftLeft, BitVec.getLsbD_setWidth]
  interval_cases i <;> simp [hz]

theorem bitField_wordL_vl (op : BitVec 4) (rl : BitVec 3) {imm : Word} (h : imm ≤ maxLiteral) :
    (bitField (wordL op rl imm) 0 25).setWidth 32 = imm := by
  have hz := getLsbD_of_le_maxLiteral h
  rw [wordL, bitField_eq]
  ext i hi
  simp only [BitVec.getElem_setWidth, BitVec.getLsbD_extractLsb', BitVec.getLsbD_or, BitVec.getLsbD_shiftLeft,
    BitVec.getLsbD_setWidth]
  by_cases h25 : i < 25
  · have h1 : i < 28 := by omega
    simp [h25, h1, BitVec.getLsbD_eq_getElem, hi]
  · have hi' := hz i (by omega)
    rw [BitVec.getLsbD_eq_getElem hi] at hi'
    simp [h25, hi']

end Sys2Proof
end

