-- ==== Sys2Proof/Laws/State.lean ====
section
/-! SUPPORT. What each update does to each field of the state: one lemma per field per update, so that no proof unfolds a
record update. -/

namespace Sys2Proof.Machine

/-! ### The register file -/

theorem Regs.get_set (x : Regs) (r q : Reg) (v : Word) : (x.set r v).get q = if q = r then v else x.get q := by
  cases r <;> cases q <;> rfl

@[simp] theorem Regs.get_set_self (x : Regs) (r : Reg) (v : Word) : (x.set r v).get r = v := by
  simp [Regs.get_set]

theorem Regs.get_set_other (x : Regs) {r q : Reg} (v : Word) (h : q ≠ r) : (x.set r v).get q = x.get q := by
  simp [Regs.get_set, h]

@[simp] theorem Regs.get_zero (r : Reg) : Regs.zero.get r = 0#32 := by
  cases r <;> rfl

@[simp] theorem State.get_setReg_self (s : State) (r : Reg) (v : Word) : (s.setReg r v).get r = v :=
  Regs.get_set_self s.regs r v

theorem State.get_setReg (s : State) (r q : Reg) (v : Word) : (s.setReg r v).get q = if q = r then v else s.get q :=
  Regs.get_set s.regs r q v

theorem State.get_setReg_other (s : State) {r q : Reg} (v : Word) (h : q ≠ r) : (s.setReg r v).get q = s.get q :=
  Regs.get_set_other s.regs v h


/-! ### setReg -/

@[simp] theorem State.setReg_regs (s : State) (r : Reg) (v : Word) : (s.setReg r v).regs = s.regs.set r v := rfl
@[simp] theorem State.setReg_ip (s : State) (r : Reg) (v : Word) : (s.setReg r v).ip = s.ip := rfl
@[simp] theorem State.setReg_mem (s : State) (r : Reg) (v : Word) : (s.setReg r v).mem = s.mem := rfl
@[simp] theorem State.setReg_run (s : State) (r : Reg) (v : Word) : (s.setReg r v).run = s.run := rfl
@[simp] theorem State.setReg_faultIp (s : State) (r : Reg) (v : Word) : (s.setReg r v).faultIp = s.faultIp := rfl
@[simp] theorem State.setReg_waiting (s : State) (r : Reg) (v : Word) : (s.setReg r v).waiting = s.waiting := rfl
@[simp] theorem State.setReg_input (s : State) (r : Reg) (v : Word) : (s.setReg r v).input = s.input := rfl
@[simp] theorem State.setReg_inpos (s : State) (r : Reg) (v : Word) : (s.setReg r v).inpos = s.inpos := rfl
@[simp] theorem State.setReg_eos (s : State) (r : Reg) (v : Word) : (s.setReg r v).eos = s.eos := rfl
@[simp] theorem State.setReg_outlog (s : State) (r : Reg) (v : Word) : (s.setReg r v).outlog = s.outlog := rfl
@[simp] theorem State.setReg_limits (s : State) (r : Reg) (v : Word) : (s.setReg r v).limits = s.limits := rfl

/-! ### setIp -/

@[simp] theorem State.setIp_regs (s : State) (a : Word) : (s.setIp a).regs = s.regs := rfl
@[simp] theorem State.setIp_ip (s : State) (a : Word) : (s.setIp a).ip = a := rfl
@[simp] theorem State.setIp_mem (s : State) (a : Word) : (s.setIp a).mem = s.mem := rfl
@[simp] theorem State.setIp_run (s : State) (a : Word) : (s.setIp a).run = s.run := rfl
@[simp] theorem State.setIp_faultIp (s : State) (a : Word) : (s.setIp a).faultIp = s.faultIp := rfl
@[simp] theorem State.setIp_waiting (s : State) (a : Word) : (s.setIp a).waiting = s.waiting := rfl
@[simp] theorem State.setIp_input (s : State) (a : Word) : (s.setIp a).input = s.input := rfl
@[simp] theorem State.setIp_inpos (s : State) (a : Word) : (s.setIp a).inpos = s.inpos := rfl
@[simp] theorem State.setIp_eos (s : State) (a : Word) : (s.setIp a).eos = s.eos := rfl
@[simp] theorem State.setIp_outlog (s : State) (a : Word) : (s.setIp a).outlog = s.outlog := rfl
@[simp] theorem State.setIp_limits (s : State) (a : Word) : (s.setIp a).limits = s.limits := rfl
@[simp] theorem State.get_setIp (s : State) (a : Word) (q : Reg) : (s.setIp a).get q = s.get q := rfl

/-! ### setMem -/

@[simp] theorem State.setMem_regs (s : State) (m : Memory) : (s.setMem m).regs = s.regs := rfl
@[simp] theorem State.setMem_ip (s : State) (m : Memory) : (s.setMem m).ip = s.ip := rfl
@[simp] theorem State.setMem_mem (s : State) (m : Memory) : (s.setMem m).mem = m := rfl
@[simp] theorem State.setMem_run (s : State) (m : Memory) : (s.setMem m).run = s.run := rfl
@[simp] theorem State.setMem_faultIp (s : State) (m : Memory) : (s.setMem m).faultIp = s.faultIp := rfl
@[simp] theorem State.setMem_waiting (s : State) (m : Memory) : (s.setMem m).waiting = s.waiting := rfl
@[simp] theorem State.setMem_input (s : State) (m : Memory) : (s.setMem m).input = s.input := rfl
@[simp] theorem State.setMem_inpos (s : State) (m : Memory) : (s.setMem m).inpos = s.inpos := rfl
@[simp] theorem State.setMem_eos (s : State) (m : Memory) : (s.setMem m).eos = s.eos := rfl
@[simp] theorem State.setMem_outlog (s : State) (m : Memory) : (s.setMem m).outlog = s.outlog := rfl
@[simp] theorem State.setMem_limits (s : State) (m : Memory) : (s.setMem m).limits = s.limits := rfl
@[simp] theorem State.get_setMem (s : State) (m : Memory) (q : Reg) : (s.setMem m).get q = s.get q := rfl

/-! ### setRun -/

@[simp] theorem State.setRun_regs (s : State) (r : Run) : (s.setRun r).regs = s.regs := rfl
@[simp] theorem State.setRun_ip (s : State) (r : Run) : (s.setRun r).ip = s.ip := rfl
@[simp] theorem State.setRun_mem (s : State) (r : Run) : (s.setRun r).mem = s.mem := rfl
@[simp] theorem State.setRun_run (s : State) (r : Run) : (s.setRun r).run = r := rfl
@[simp] theorem State.setRun_faultIp (s : State) (r : Run) : (s.setRun r).faultIp = s.faultIp := rfl
@[simp] theorem State.setRun_waiting (s : State) (r : Run) : (s.setRun r).waiting = s.waiting := rfl
@[simp] theorem State.setRun_input (s : State) (r : Run) : (s.setRun r).input = s.input := rfl
@[simp] theorem State.setRun_inpos (s : State) (r : Run) : (s.setRun r).inpos = s.inpos := rfl
@[simp] theorem State.setRun_eos (s : State) (r : Run) : (s.setRun r).eos = s.eos := rfl
@[simp] theorem State.setRun_outlog (s : State) (r : Run) : (s.setRun r).outlog = s.outlog := rfl
@[simp] theorem State.setRun_limits (s : State) (r : Run) : (s.setRun r).limits = s.limits := rfl
@[simp] theorem State.get_setRun (s : State) (r : Run) (q : Reg) : (s.setRun r).get q = s.get q := rfl

/-! ### outputByte -/

@[simp] theorem State.outputByte_regs (s : State) (b : Byte) : (s.outputByte b).regs = s.regs := rfl
@[simp] theorem State.outputByte_ip (s : State) (b : Byte) : (s.outputByte b).ip = s.ip := rfl
@[simp] theorem State.outputByte_mem (s : State) (b : Byte) : (s.outputByte b).mem = s.mem := rfl
@[simp] theorem State.outputByte_run (s : State) (b : Byte) : (s.outputByte b).run = s.run := rfl
@[simp] theorem State.outputByte_faultIp (s : State) (b : Byte) : (s.outputByte b).faultIp = s.faultIp := rfl
@[simp] theorem State.outputByte_waiting (s : State) (b : Byte) : (s.outputByte b).waiting = s.waiting := rfl
@[simp] theorem State.outputByte_input (s : State) (b : Byte) : (s.outputByte b).input = s.input := rfl
@[simp] theorem State.outputByte_inpos (s : State) (b : Byte) : (s.outputByte b).inpos = s.inpos := rfl
@[simp] theorem State.outputByte_eos (s : State) (b : Byte) : (s.outputByte b).eos = s.eos := rfl
@[simp] theorem State.outputByte_outlog (s : State) (b : Byte) : (s.outputByte b).outlog = s.outlog ++ [b] := rfl
@[simp] theorem State.outputByte_limits (s : State) (b : Byte) : (s.outputByte b).limits = s.limits := rfl
@[simp] theorem State.get_outputByte (s : State) (b : Byte) (q : Reg) : (s.outputByte b).get q = s.get q := rfl

/-! ### fatalAt -/

@[simp] theorem State.fatalAt_regs (s : State) (a : Word) (c : Cause) : (s.fatalAt a c).regs = s.regs := rfl
@[simp] theorem State.fatalAt_ip (s : State) (a : Word) (c : Cause) : (s.fatalAt a c).ip = s.ip := rfl
@[simp] theorem State.fatalAt_mem (s : State) (a : Word) (c : Cause) : (s.fatalAt a c).mem = s.mem := rfl
@[simp] theorem State.fatalAt_run (s : State) (a : Word) (c : Cause) : (s.fatalAt a c).run = .fatal c := rfl
@[simp] theorem State.fatalAt_faultIp (s : State) (a : Word) (c : Cause) : (s.fatalAt a c).faultIp = a := rfl
@[simp] theorem State.fatalAt_waiting (s : State) (a : Word) (c : Cause) : (s.fatalAt a c).waiting = s.waiting := rfl
@[simp] theorem State.fatalAt_input (s : State) (a : Word) (c : Cause) : (s.fatalAt a c).input = s.input := rfl
@[simp] theorem State.fatalAt_inpos (s : State) (a : Word) (c : Cause) : (s.fatalAt a c).inpos = s.inpos := rfl
@[simp] theorem State.fatalAt_eos (s : State) (a : Word) (c : Cause) : (s.fatalAt a c).eos = s.eos := rfl
@[simp] theorem State.fatalAt_outlog (s : State) (a : Word) (c : Cause) : (s.fatalAt a c).outlog = s.outlog := rfl
@[simp] theorem State.fatalAt_limits (s : State) (a : Word) (c : Cause) : (s.fatalAt a c).limits = s.limits := rfl
@[simp] theorem State.get_fatalAt (s : State) (a : Word) (c : Cause) (q : Reg) : (s.fatalAt a c).get q = s.get q := rfl

/-! ### raise -/

@[simp] theorem State.raise_regs (s : State) (c : Cause) : (s.raise c).regs = s.regs := rfl
@[simp] theorem State.raise_ip (s : State) (c : Cause) : (s.raise c).ip = s.ip := rfl
@[simp] theorem State.raise_mem (s : State) (c : Cause) : (s.raise c).mem = s.mem := rfl
@[simp] theorem State.raise_run (s : State) (c : Cause) : (s.raise c).run = .fatal c := rfl
@[simp] theorem State.raise_faultIp (s : State) (c : Cause) : (s.raise c).faultIp = s.ip - 1#32 := rfl
@[simp] theorem State.raise_waiting (s : State) (c : Cause) : (s.raise c).waiting = s.waiting := rfl
@[simp] theorem State.raise_input (s : State) (c : Cause) : (s.raise c).input = s.input := rfl
@[simp] theorem State.raise_inpos (s : State) (c : Cause) : (s.raise c).inpos = s.inpos := rfl
@[simp] theorem State.raise_eos (s : State) (c : Cause) : (s.raise c).eos = s.eos := rfl
@[simp] theorem State.raise_outlog (s : State) (c : Cause) : (s.raise c).outlog = s.outlog := rfl
@[simp] theorem State.raise_limits (s : State) (c : Cause) : (s.raise c).limits = s.limits := rfl
@[simp] theorem State.get_raise (s : State) (c : Cause) (q : Reg) : (s.raise c).get q = s.get q := rfl

/-! ### advance -/

@[simp] theorem State.advance_regs (s : State) : (s.advance).regs = s.regs := rfl
@[simp] theorem State.advance_ip (s : State) : (s.advance).ip = s.ip + 1#32 := rfl
@[simp] theorem State.advance_mem (s : State) : (s.advance).mem = s.mem := rfl
@[simp] theorem State.advance_run (s : State) : (s.advance).run = s.run := rfl
@[simp] theorem State.advance_faultIp (s : State) : (s.advance).faultIp = s.faultIp := rfl
@[simp] theorem State.advance_waiting (s : State) : (s.advance).waiting = s.waiting := rfl
@[simp] theorem State.advance_input (s : State) : (s.advance).input = s.input := rfl
@[simp] theorem State.advance_inpos (s : State) : (s.advance).inpos = s.inpos := rfl
@[simp] theorem State.advance_eos (s : State) : (s.advance).eos = s.eos := rfl
@[simp] theorem State.advance_outlog (s : State) : (s.advance).outlog = s.outlog := rfl
@[simp] theorem State.advance_limits (s : State) : (s.advance).limits = s.limits := rfl
@[simp] theorem State.get_advance (s : State) (q : Reg) : (s.advance).get q = s.get q := rfl

/-! ### presentByte -/

@[simp] theorem State.presentByte_regs (s : State) (b : Byte) : (s.presentByte b).regs = s.regs := rfl
@[simp] theorem State.presentByte_ip (s : State) (b : Byte) : (s.presentByte b).ip = s.ip := rfl
@[simp] theorem State.presentByte_mem (s : State) (b : Byte) : (s.presentByte b).mem = s.mem := rfl
@[simp] theorem State.presentByte_run (s : State) (b : Byte) : (s.presentByte b).run = s.run := rfl
@[simp] theorem State.presentByte_faultIp (s : State) (b : Byte) : (s.presentByte b).faultIp = s.faultIp := rfl
@[simp] theorem State.presentByte_waiting (s : State) (b : Byte) : (s.presentByte b).waiting = s.waiting := rfl
@[simp] theorem State.presentByte_inpos (s : State) (b : Byte) : (s.presentByte b).inpos = s.inpos := rfl
@[simp] theorem State.presentByte_eos (s : State) (b : Byte) : (s.presentByte b).eos = s.eos := rfl
@[simp] theorem State.presentByte_outlog (s : State) (b : Byte) : (s.presentByte b).outlog = s.outlog := rfl
@[simp] theorem State.presentByte_limits (s : State) (b : Byte) : (s.presentByte b).limits = s.limits := rfl
@[simp] theorem State.get_presentByte (s : State) (b : Byte) (q : Reg) : (s.presentByte b).get q = s.get q := rfl

/-! ### endInput -/

@[simp] theorem State.endInput_regs (s : State) : (s.endInput).regs = s.regs := rfl
@[simp] theorem State.endInput_ip (s : State) : (s.endInput).ip = s.ip := rfl
@[simp] theorem State.endInput_mem (s : State) : (s.endInput).mem = s.mem := rfl
@[simp] theorem State.endInput_run (s : State) : (s.endInput).run = s.run := rfl
@[simp] theorem State.endInput_faultIp (s : State) : (s.endInput).faultIp = s.faultIp := rfl
@[simp] theorem State.endInput_waiting (s : State) : (s.endInput).waiting = s.waiting := rfl
@[simp] theorem State.endInput_input (s : State) : (s.endInput).input = { s.input with ended := true } := rfl
@[simp] theorem State.endInput_inpos (s : State) : (s.endInput).inpos = s.inpos := rfl
@[simp] theorem State.endInput_eos (s : State) : (s.endInput).eos = s.eos := rfl
@[simp] theorem State.endInput_outlog (s : State) : (s.endInput).outlog = s.outlog := rfl
@[simp] theorem State.endInput_limits (s : State) : (s.endInput).limits = s.limits := rfl
@[simp] theorem State.get_endInput (s : State) (q : Reg) : (s.endInput).get q = s.get q := rfl

/-! ### The state after reset -/

@[simp] theorem State.get_reset (r : Reg) : State.reset.get r = 0#32 := Regs.get_zero r

end Sys2Proof.Machine
end

