-- ==== Sys2Proof/Laws/Ops.lean ====
section
/-! SUPPORT. What each shared operation can do, said once: the words of a segment, the controller's five operations and the
canonical form they keep, the end of an instruction, the fetch and the answer on IN. -/

namespace Sys2Proof.Machine

/-! ### The words of a segment -/

theorem cellsRead_cellsWrite_other (l : List (Nat × Word)) {k q : Nat} (v : Word) (h : q ≠ k) :
    cellsRead (cellsWrite l k v) q = cellsRead l q := by
  induction l with
  | nil => by_cases hv : v = 0#32 <;> simp [cellsWrite, cellsRead, hv, h]
  | cons c t ih =>
    obtain ⟨a, w⟩ := c
    simp only [cellsWrite]
    split
    · by_cases hv : v = 0#32 <;> simp [cellsRead, hv, h]
    · split
      · subst_vars
        by_cases hv : v = 0#32 <;> simp [cellsRead, hv, h]
      · simp [cellsRead, ih]

theorem cellsRead_eq_zero (l : List (Nat × Word)) (k : Nat) (h : ∀ c ∈ l, c.1 ≠ k) : cellsRead l k = 0#32 := by
  induction l with
  | nil => rfl
  | cons c t ih =>
    have hc := h c (List.mem_cons_self ..)
    simp only [cellsRead, if_neg (Ne.symm hc)]
    exact ih fun d hd => h d (List.mem_cons_of_mem _ hd)

theorem cellsRead_cellsWrite_self (l : List (Nat × Word)) (k : Nat) (v : Word)
    (h : l.Pairwise (fun a b => a.1 < b.1)) : cellsRead (cellsWrite l k v) k = v := by
  induction l with
  | nil => by_cases hv : v = 0#32 <;> simp [cellsWrite, cellsRead, hv]
  | cons c t ih =>
    obtain ⟨a, w⟩ := c
    obtain ⟨ha, ht⟩ := List.pairwise_cons.1 h
    have above : k ≤ a → cellsRead t k = 0#32 := fun hk =>
      cellsRead_eq_zero t k fun d hd => by have := ha d hd; simp at this; omega
    simp only [cellsWrite]
    split
    · rename_i hk
      by_cases hv : v = 0#32
      · have hne : k ≠ a := by omega
        simp [cellsRead, hv, hne, above (by omega)]
      · simp [cellsRead, hv]
    · split
      · rename_i hk
        by_cases hv : v = 0#32
        · simp [hv, above (by omega)]
        · simp [cellsRead, hv]
      · rename_i hk
        simp [cellsRead, hk, ih ht]

theorem mem_cellsWrite {l : List (Nat × Word)} {k : Nat} {v : Word} {c : Nat × Word} (h : c ∈ cellsWrite l k v) :
    c ∈ l ∨ (c = (k, v) ∧ v ≠ 0#32) := by
  induction l with
  | nil =>
    by_cases hv : v = 0#32 <;> simp_all [cellsWrite]
  | cons d t ih =>
    obtain ⟨a, w⟩ := d
    simp only [cellsWrite] at h
    by_cases hv : v = 0#32
    · simp only [if_pos hv] at h
      split at h
      · exact .inl h
      · split at h
        · exact .inl (List.mem_cons_of_mem _ h)
        · rcases List.mem_cons.1 h with rfl | h
          · simp
          · exact (ih h).imp_left (List.mem_cons_of_mem _)
    · simp only [if_neg hv] at h
      split at h
      · rcases List.mem_cons.1 h with rfl | h
        · exact .inr ⟨rfl, hv⟩
        · exact .inl h
      · split at h
        · rcases List.mem_cons.1 h with rfl | h
          · exact .inr ⟨rfl, hv⟩
          · exact .inl (List.mem_cons_of_mem _ h)
        · rcases List.mem_cons.1 h with rfl | h
          · simp
          · exact (ih h).imp_left (List.mem_cons_of_mem _)

theorem cellsWrite_sorted {l : List (Nat × Word)} (k : Nat) (v : Word) (h : l.Pairwise (fun a b => a.1 < b.1)) :
    (cellsWrite l k v).Pairwise (fun a b => a.1 < b.1) := by
  induction l with
  | nil => by_cases hv : v = 0#32 <;> simp [cellsWrite, hv]
  | cons c t ih =>
    obtain ⟨a, w⟩ := c
    obtain ⟨ha, ht⟩ := List.pairwise_cons.1 h
    simp only [cellsWrite]
    split
    · rename_i hk
      by_cases hv : v = 0#32
      · rwa [if_pos hv]
      · rw [if_neg hv]
        refine List.pairwise_cons.2 ⟨fun d hd => ?_, h⟩
        rcases List.mem_cons.1 hd with rfl | hd
        · exact hk
        · exact lt_trans hk (ha d hd)
    · split
      · rename_i hk
        subst hk
        by_cases hv : v = 0#32
        · simpa [hv] using ht
        · rw [if_neg hv]
          exact List.pairwise_cons.2 ⟨ha, ht⟩
      · rename_i hlt hne
        refine List.pairwise_cons.2 ⟨fun d hd => ?_, ih ht⟩
        rcases mem_cellsWrite hd with hd | ⟨rfl, -⟩
        · exact ha d hd
        · show a < k
          omega

theorem mem_cellsOf {k : Nat} {ws : List Word} {c : Nat × Word} (h : c ∈ cellsOf k ws) :
    k ≤ c.1 ∧ c.1 < k + ws.length ∧ c.2 ≠ 0#32 := by
  induction ws generalizing k with
  | nil => simp [cellsOf] at h
  | cons w ws ih =>
    by_cases hw : w = 0#32
    · have := ih (k := k + 1) (by simpa [cellsOf, hw] using h)
      simp only [List.length_cons]
      exact ⟨by omega, by omega, this.2.2⟩
    · rcases List.mem_cons.1 (by simpa [cellsOf, hw] using h) with rfl | h
      · simp [hw]
      · have := ih (k := k + 1) h
        simp only [List.length_cons]
        exact ⟨by omega, by omega, this.2.2⟩

theorem cellsOf_sorted (k : Nat) (ws : List Word) : (cellsOf k ws).Pairwise (fun a b => a.1 < b.1) := by
  induction ws generalizing k with
  | nil => exact List.Pairwise.nil
  | cons w ws ih =>
    by_cases hw : w = 0#32
    · simpa [cellsOf, hw] using ih (k + 1)
    · simp only [cellsOf, if_neg hw]
      refine List.pairwise_cons.2 ⟨fun d hd => ?_, ih (k + 1)⟩
      have := (mem_cellsOf hd).1
      show k < d.1
      omega

theorem cellsRead_cellsOf (k j : Nat) (ws : List Word) : cellsRead (cellsOf k ws) (k + j) = ws.getD j 0#32 := by
  induction ws generalizing k j with
  | nil => simp [cellsOf, cellsRead]
  | cons w ws ih =>
    have rest : ∀ j', cellsRead (cellsOf (k + 1) ws) (k + (j' + 1)) = ws.getD j' 0#32 := fun j' => by
      rw [← ih (k + 1) j']
      congr 1
      omega
    by_cases hw : w = 0#32
    · simp only [cellsOf, if_pos hw]
      cases j with
      | zero =>
        subst hw
        exact cellsRead_eq_zero _ _ fun c hc => by have := (mem_cellsOf hc).1; omega
      | succ j => simpa using rest j
    · simp only [cellsOf, if_neg hw, cellsRead]
      cases j with
      | zero => simp
      | succ j =>
        rw [if_neg (by omega)]
        simpa using rest j

/-! ### Segments -/

theorem toNat_ne {o q : Word} (h : q ≠ o) : q.toNat ≠ o.toNat := fun e => h (BitVec.eq_of_toNat_eq e)

theorem Segment.word_setWord_self {g : Segment} (hg : g.Wf) (o v : Word) : (g.setWord o v).word o = v :=
  cellsRead_cellsWrite_self _ _ _ hg.1

theorem Segment.word_setWord_other (g : Segment) {o q : Word} (v : Word) (h : q ≠ o) :
    (g.setWord o v).word q = g.word q :=
  cellsRead_cellsWrite_other _ _ (toNat_ne h)

@[simp] theorem Segment.len_setWord (g : Segment) (o v : Word) : (g.setWord o v).len = g.len := rfl

@[simp] theorem Segment.len_zeros (n : Word) : (Segment.zeros n).len = n := rfl

@[simp] theorem Segment.word_zeros (n o : Word) : (Segment.zeros n).word o = 0#32 := rfl

@[simp] theorem Segment.len_empty : Segment.empty.len = 0#32 := rfl

theorem Segment.empty_wf : Segment.empty.Wf := by simp [Segment.Wf, Segment.empty]

theorem Segment.zeros_wf (n : Word) : (Segment.zeros n).Wf := by simp [Segment.Wf, Segment.zeros]

theorem Segment.setWord_wf {g : Segment} (hg : g.Wf) {o : Word} (v : Word) (ho : o < g.len) : (g.setWord o v).Wf := by
  refine ⟨cellsWrite_sorted _ _ hg.1, fun c hc => ?_⟩
  rcases mem_cellsWrite hc with hc | ⟨rfl, hv⟩
  · exact hg.2 c hc
  · exact ⟨hv, BitVec.lt_def.1 ho⟩

theorem Segment.len_ofWords {ws : List Word} (h : ws.length < 2 ^ 32) : (Segment.ofWords ws).len.toNat = ws.length := by
  simp only [Segment.ofWords, BitVec.toNat_ofNat]
  exact Nat.mod_eq_of_lt h

theorem Segment.word_ofWords (ws : List Word) (o : Word) : (Segment.ofWords ws).word o = ws.getD o.toNat 0#32 := by
  have h := cellsRead_cellsOf 0 o.toNat ws
  rwa [Nat.zero_add] at h

theorem Segment.ofWords_wf {ws : List Word} (h : ws.length < 2 ^ 32) : (Segment.ofWords ws).Wf := by
  refine ⟨cellsOf_sorted _ _, fun c hc => ?_⟩
  obtain ⟨-, hlt, hne⟩ := mem_cellsOf hc
  exact ⟨hne, by rw [Segment.len_ofWords h]; omega⟩

/-! ### The controller: lookups -/

theorem Memory.segment_setSegment_self {m : Memory} {i : Word} (g : Segment) (h : i.toNat < m.seg.length) :
    (m.setSegment i g).segment i = g := by
  simp [Memory.segment, Memory.setSegment, h]

theorem Memory.segment_setSegment_other (m : Memory) {i j : Word} (g : Segment) (h : j ≠ i) :
    (m.setSegment i g).segment j = m.segment j := by
  simp [Memory.segment, Memory.setSegment, List.getElem?_set_ne (Ne.symm (toNat_ne h))]

@[simp] theorem Memory.setSegment_free (m : Memory) (i : Word) (g : Segment) : (m.setSegment i g).free = m.free := rfl

@[simp] theorem Memory.setSegment_length (m : Memory) (i : Word) (g : Segment) :
    (m.setSegment i g).seg.length = m.seg.length := by
  simp [Memory.setSegment]

theorem Memory.segment_wf {m : Memory} (hm : m.Wf) (i : Word) : (m.segment i).Wf := by
  unfold Memory.segment
  rw [List.getD_eq_getElem?_getD]
  cases h : m.seg[i.toNat]? with
  | none => exact Segment.empty_wf
  | some g => exact hm.2.2.1 g (List.mem_of_getElem? h)

/-- Every id in the free list is not 0 and has an empty entry in the table (R25). -/
theorem Memory.free_entry {m : Memory} (hm : m.Wf) {i : Word} (hi : i ∈ m.free) :
    i ≠ 0#32 ∧ m.seg[i.toNat]? = some Segment.empty :=
  of_decide_eq_true (List.all_eq_true.1 hm.2.2.2.2 i hi)

/-- The invariant from its parts. -/
theorem Memory.wf_of {m : Memory} (h1 : 0 < m.seg.length) (h2 : m.seg.length ≤ 2 ^ 32) (h3 : ∀ g ∈ m.seg, g.Wf)
    (h4 : m.free.Nodup) (h5 : ∀ i ∈ m.free, i ≠ 0#32 ∧ m.seg[i.toNat]? = some Segment.empty) : m.Wf :=
  ⟨h1, h2, h3, h4, List.all_eq_true.2 fun i hi => decide_eq_true (h5 i hi)⟩

theorem Memory.mapped_zero {m : Memory} (hm : m.Wf) : m.Mapped 0#32 :=
  ⟨by simpa using hm.1, fun h => (Memory.free_entry hm h).1 rfl⟩

/-- The read of an address, by cases. -/
theorem Memory.read_cases (m : Memory) (i o : Word) :
    (m.Valid i o ∧ m.read i o = .ok ((m.segment i).word o)) ∨ (¬ m.Valid i o ∧ m.read i o = .error .invalidAccess) := by
  by_cases h : m.Valid i o
  · exact .inl ⟨h, if_pos h⟩
  · exact .inr ⟨h, if_neg h⟩

theorem Memory.read_of_valid {m : Memory} {i o : Word} (h : m.Valid i o) : m.read i o = .ok ((m.segment i).word o) :=
  if_pos h

theorem Memory.read_of_not_valid {m : Memory} {i o : Word} (h : ¬ m.Valid i o) : m.read i o = .error .invalidAccess :=
  if_neg h

/-- A read answers alike in two memories that agree on the mapping, the length and the words of the segment. -/
theorem Memory.read_congr {m m' : Memory} {i o : Word} (hmap : m'.Mapped i ↔ m.Mapped i)
    (hlen : m'.len i = m.len i) (hword : o < m.len i → (m'.segment i).word o = (m.segment i).word o) :
    m'.read i o = m.read i o := by
  have hv : m'.Valid i o ↔ m.Valid i o := by rw [Memory.Valid, Memory.Valid, hmap, hlen]
  rcases m.read_cases i o with ⟨h, e⟩ | ⟨h, e⟩
  · rw [e, Memory.read_of_valid (hv.2 h), hword h.2]
  · rw [e, Memory.read_of_not_valid (fun h' => h (hv.1 h'))]

/-! ### The controller: what each operation can do -/

theorem Memory.write_cases (m : Memory) (i o v : Word) :
    (m.Valid i o ∧ m.write i o v = .ok (m.setSegment i ((m.segment i).setWord o v))) ∨
      (¬ m.Valid i o ∧ m.write i o v = .error .invalidAccess) := by
  by_cases h : m.Valid i o
  · exact .inl ⟨h, if_pos h⟩
  · exact .inr ⟨h, if_neg h⟩

theorem Memory.allocate_cases (m : Memory) (l : Limits) (n : Word) :
    (m.exhausted l n = true ∧ m.allocate l n = .error .resourceExhausted) ∨
      (m.exhausted l n = false ∧ ∃ i rest, m.free = i :: rest ∧
        m.allocate l n = .ok (i, { seg := m.seg.set i.toNat (Segment.zeros n), free := rest })) ∨
      (m.exhausted l n = false ∧ m.free = [] ∧
        m.allocate l n = .ok (BitVec.ofNat 32 m.seg.length, { seg := m.seg ++ [Segment.zeros n], free := [] })) := by
  cases he : m.exhausted l n with
  | true => exact .inl ⟨rfl, by simp [Memory.allocate, he]⟩
  | false =>
    cases hf : m.free with
    | nil => exact .inr (.inr ⟨rfl, rfl, by simp [Memory.allocate, he, hf]⟩)
    | cons i rest => exact .inr (.inl ⟨rfl, i, rest, rfl, by simp [Memory.allocate, he, hf]⟩)

theorem Memory.deallocate_cases (m : Memory) (i : Word) :
    ((i = 0#32 ∨ ¬ m.Mapped i) ∧ m.deallocate i = .error .invalidUnmap) ∨
      (i ≠ 0#32 ∧ m.Mapped i ∧ m.deallocate i = .ok { seg := m.seg.set i.toNat Segment.empty, free := i :: m.free }) := by
  by_cases h : i = 0#32 ∨ ¬ m.Mapped i
  · exact .inl ⟨h, if_pos h⟩
  · exact .inr ⟨fun e => h (.inl e), by_contra fun e => h (.inr e), if_neg h⟩

theorem Memory.loadProgram_cases (m : Memory) (l : Limits) (i : Word) :
    (¬ m.Mapped i ∧ m.loadProgram l i = .error .invalidAccess) ∨
      (m.Mapped i ∧ Limits.exceededBy l (m.setSegment 0#32 (m.segment i)).totalWords = true ∧
        m.loadProgram l i = .error .resourceExhausted) ∨
      (m.Mapped i ∧ Limits.exceededBy l (m.setSegment 0#32 (m.segment i)).totalWords = false ∧
        m.loadProgram l i = .ok (m.setSegment 0#32 (m.segment i))) := by
  by_cases h : m.Mapped i
  · cases he : Limits.exceededBy l (m.setSegment 0#32 (m.segment i)).totalWords with
    | true => exact .inr (.inl ⟨h, rfl, by rw [Memory.loadProgram, if_neg (not_not.2 h), if_pos he]⟩)
    | false => exact .inr (.inr ⟨h, rfl, by rw [Memory.loadProgram, if_neg (not_not.2 h), if_neg (by simp [he])]⟩)
  · exact .inl ⟨h, by rw [Memory.loadProgram, if_pos h]⟩

/-! ### The canonical form is kept -/

theorem State.reset_mem_wf : State.reset.mem.Wf := by decide

theorem Memory.ofWords_wf {ws : List Word} (h : ws.length < 2 ^ 32) :
    Memory.Wf { seg := [Segment.ofWords ws], free := [] } := by
  refine Memory.wf_of (by simp) (by simp) ?_ (by simp) (by simp)
  simpa using Segment.ofWords_wf h

/-- Replacing a segment whose id is not free keeps the invariant. -/
theorem Memory.setSegment_wf {m : Memory} (hm : m.Wf) {i : Word} (hi : i ∉ m.free) {g : Segment} (hg : g.Wf) :
    (m.setSegment i g).Wf := by
  refine Memory.wf_of (by simpa using hm.1) (by simpa using hm.2.1) (fun g' hg' => ?_) hm.2.2.2.1
    fun j hj => ⟨(Memory.free_entry hm hj).1, ?_⟩
  · rcases List.mem_or_eq_of_mem_set hg' with h | rfl
    · exact hm.2.2.1 g' h
    · exact hg
  · have hne : j ≠ i := fun e => hi (e ▸ hj)
    show (m.seg.set i.toNat g)[j.toNat]? = some Segment.empty
    rw [List.getElem?_set_ne (Ne.symm (toNat_ne hne))]
    exact (Memory.free_entry hm hj).2

theorem Memory.write_wf {m m' : Memory} (hm : m.Wf) {i o v : Word} (h : m.write i o v = .ok m') : m'.Wf := by
  rcases m.write_cases i o v with ⟨hv, e⟩ | ⟨-, e⟩ <;> rw [e] at h <;> cases h
  exact Memory.setSegment_wf hm hv.1.2 (Segment.setWord_wf (Memory.segment_wf hm i) v hv.2)

theorem Memory.loadProgram_wf {m m' : Memory} (hm : m.Wf) {l : Limits} {i : Word} (h : m.loadProgram l i = .ok m') :
    m'.Wf := by
  rcases m.loadProgram_cases l i with ⟨-, e⟩ | ⟨-, -, e⟩ | ⟨-, -, e⟩ <;> rw [e] at h <;> cases h
  exact Memory.setSegment_wf hm (Memory.mapped_zero hm).2 (Memory.segment_wf hm i)

theorem Memory.deallocate_wf {m m' : Memory} (hm : m.Wf) {i : Word} (h : m.deallocate i = .ok m') : m'.Wf := by
  rcases m.deallocate_cases i with ⟨-, e⟩ | ⟨h0, hmap, e⟩ <;> rw [e] at h <;> cases h
  have w := Memory.setSegment_wf hm hmap.2 Segment.empty_wf
  refine Memory.wf_of w.1 w.2.1 w.2.2.1 (List.nodup_cons.2 ⟨hmap.2, w.2.2.2.1⟩) fun j hj => ?_
  rcases List.mem_cons.1 hj with rfl | hj
  · exact ⟨h0, by simp [hmap.1]⟩
  · exact Memory.free_entry w hj

theorem Memory.allocate_wf {m m' : Memory} (hm : m.Wf) {l : Limits} (hl : l.Legal) {n i : Word}
    (h : m.allocate l n = .ok (i, m')) : m'.Wf := by
  rcases m.allocate_cases l n with ⟨-, e⟩ | ⟨-, j, rest, hf, e⟩ | ⟨he, hf, e⟩ <;> rw [e] at h <;> cases h
  · have hnd : i ∉ rest ∧ rest.Nodup := List.nodup_cons.1 (hf ▸ hm.2.2.2.1)
    exact Memory.setSegment_wf (m := { seg := m.seg, free := rest })
      (Memory.wf_of hm.1 hm.2.1 hm.2.2.1 hnd.2 fun j hj => Memory.free_entry hm (hf ▸ List.mem_cons_of_mem _ hj))
      hnd.1 (Segment.zeros_wf n)
  · have hroom : m.seg.length < 2 ^ 32 := by
      simp only [Memory.exhausted, hf, Bool.or_eq_false_iff] at he
      have := hl.2
      simp at he
      omega
    refine Memory.wf_of (by simp) (by simpa using hroom) (fun g hg => ?_) (by simp) (by simp)
    rcases List.mem_append.1 hg with hg | hg
    · exact hm.2.2.1 g hg
    · rw [List.mem_singleton.1 hg]
      exact Segment.zeros_wf n

/-- Placing a word in segment 0 keeps the invariant, at every offset that can hold a word (R43). -/
theorem Memory.placeWord_wf {m : Memory} (hm : m.Wf) {a : Word} (ha : a ≠ 0xFFFFFFFF#32) (w : Word) :
    (m.placeWord a w).Wf := by
  have hgrown : ∀ g : Segment, g.Wf → (Segment.placeWord g a w).Wf := fun g hg => by
    have hne : a.toNat ≠ 4294967295 := fun e => ha (BitVec.eq_of_toNat_eq e)
    have hlt := a.isLt
    unfold Segment.placeWord
    by_cases hin : a < g.len
    · simp only [if_pos hin]
      exact Segment.setWord_wf hg w hin
    · have hlen : (a + 1#32).toNat = a.toNat + 1 := by simp; omega
      have hle : g.len.toNat ≤ a.toNat := by
        rw [BitVec.lt_def] at hin
        omega
      simp only [if_neg hin]
      have hlonger : Segment.Wf { g with len := a + 1#32 } := ⟨hg.1, fun c hc => ⟨(hg.2 c hc).1, by
        have := (hg.2 c hc).2
        show c.1 < (a + 1#32).toNat
        omega⟩⟩
      exact Segment.setWord_wf hlonger w (BitVec.lt_def.2 (by show a.toNat < (a + 1#32).toNat; omega))
  cases hseg : m.seg with
  | nil => exact absurd hm.1 (by simp [hseg])
  | cons g rest =>
    have hl : (m.placeWord a w).seg = Segment.placeWord g a w :: rest := by simp [Memory.placeWord, hseg]
    have hfree : (m.placeWord a w).free = m.free.filter (fun i => i ≠ 0#32) := rfl
    refine Memory.wf_of (by simp [hl]) (by rw [hl]; simpa [hseg] using hm.2.1) (fun g' hg' => ?_)
      (hfree ▸ hm.2.2.2.1.filter _) fun i hi => ?_
    · rw [hl] at hg'
      rcases List.mem_cons.1 hg' with rfl | hg'
      · exact hgrown g (hm.2.2.1 g (by simp [hseg]))
      · exact hm.2.2.1 g' (by simp [hseg, hg'])
    · have hi' := Memory.free_entry hm (List.mem_of_mem_filter (hfree ▸ hi))
      refine ⟨hi'.1, ?_⟩
      have hpos : i.toNat ≠ 0 := fun e => hi'.1 (BitVec.eq_of_toNat_eq e)
      obtain ⟨k, hk⟩ := Nat.exists_eq_succ_of_ne_zero hpos
      have := hi'.2
      rw [hl]
      rw [hseg] at this
      rw [hk] at this ⊢
      simpa using this

/-- The table after an allocation is within MAX_SEGMENTS if it was before. -/
theorem Memory.allocate_length {m m' : Memory} {l : Limits} {n i : Word} (h : m.allocate l n = .ok (i, m'))
    (hle : m.seg.length ≤ l.maxSegments) : m'.seg.length ≤ l.maxSegments := by
  rcases m.allocate_cases l n with ⟨-, e⟩ | ⟨-, j, rest, hf, e⟩ | ⟨he, hf, e⟩ <;> rw [e] at h <;> cases h
  · simpa using hle
  · simp only [Memory.exhausted, hf, Bool.or_eq_false_iff] at he
    simp at he
    simp
    omega

/-! ### The end of an instruction, the fetch, and the answer on IN -/

/-- Every instruction that ends in `finish` answers a next state: the one it made, or the fatal entry. -/
theorem State.finish_cases (s : State) (r : Except Cause State) :
    (∃ t, r = .ok t ∧ s.finish r = .next t) ∨ (∃ c, r = .error c ∧ s.finish r = .next (s.raise c)) := by
  cases r with
  | ok t => exact .inl ⟨t, rfl, rfl⟩
  | error c => exact .inr ⟨c, rfl, rfl⟩

theorem State.fetch_cases (s : State) :
    (∃ w, s.mem.read 0#32 s.ip = .ok w ∧ s.fetch = .ok w) ∨ (¬ s.mem.Valid 0#32 s.ip ∧ s.fetch = .error .fetchOutOfRange) := by
  rcases s.mem.read_cases 0#32 s.ip with ⟨-, e⟩ | ⟨h, e⟩
  · exact .inl ⟨_, e, by rw [State.fetch, e]⟩
  · exact .inr ⟨h, by rw [State.fetch, e]⟩

theorem State.inputByte_cases (s : State) :
    (∃ b, s.eos = false ∧ s.input.bytes[s.inpos]? = some b ∧ s.inputByte = .byte b) ∨
      ((s.eos = true ∨ (s.input.bytes[s.inpos]? = none ∧ s.input.ended = true)) ∧ s.inputByte = .endOfStream) ∨
      (s.eos = false ∧ s.input.bytes[s.inpos]? = none ∧ s.input.ended = false ∧ s.inputByte = .notYet) := by
  cases he : s.eos with
  | true => exact .inr (.inl ⟨.inl rfl, by simp [State.inputByte, he]⟩)
  | false =>
    cases hb : s.input.bytes[s.inpos]? with
    | some b => exact .inl ⟨b, rfl, rfl, by simp [State.inputByte, he, hb]⟩
    | none =>
      cases hn : s.input.ended with
      | true => exact .inr (.inl ⟨.inr ⟨rfl, rfl⟩, by simp [State.inputByte, he, hb, hn]⟩)
      | false => exact .inr (.inr ⟨rfl, rfl, rfl, by simp [State.inputByte, he, hb, hn]⟩)

theorem State.takeInput_byte {s : State} {b : Byte} (r : Reg) (h : s.inputByte = .byte b) :
    s.takeInput r = { s.setReg r (b.setWidth 32) with inpos := s.inpos + 1, waiting := none } := by
  simp [State.takeInput, h]

theorem State.takeInput_endOfStream {s : State} (r : Reg) (h : s.inputByte = .endOfStream) :
    s.takeInput r = { s.setReg r Word.allOnes with eos := true, waiting := none } := by
  simp [State.takeInput, h]

theorem State.takeInput_notYet {s : State} (r : Reg) (h : s.inputByte = .notYet) :
    s.takeInput r = { s with waiting := some r } := by
  simp [State.takeInput, h]

end Sys2Proof.Machine
end

