-- ==== Sys2Proof/Laws/PerInstr.lean ====
section
/-! SUPPORT. What holds of every instruction's encoding, one lemma per constructor: the opcode field carries the operation's
number and every unused bit is 0 (R80). -/

namespace Sys2Proof.Laws.Encoding

/-- The encoding of a well-formed instruction has the operation's number in OP (R75), and a format R word has 0 in bits
27:9, which no format R instruction uses (R72, R80). -/
def Statement (i : Instr) : Prop :=
  i.WellFormed → fieldOP (encode i) = i.op.number ∧ (i.op ≠ .loadi → bitField (encode i) 9 19 = 0)

/-- What every format R encoding satisfies. -/
theorem formatR (op : BitVec 4) (a b c : BitVec 3) :
    fieldOP (wordR op a b c) = op ∧ bitField (wordR op a b c) 9 19 = 0 :=
  ⟨bitField_wordR_op op a b c, bitField_wordR_unused op a b c⟩

theorem cmov (ra rb rc : Reg) : Statement (.cmov ra rb rc) := fun _ => (formatR _ _ _ _).imp_right fun h _ => h
theorem sload (ra rb rc : Reg) : Statement (.sload ra rb rc) := fun _ => (formatR _ _ _ _).imp_right fun h _ => h
theorem sstore (ra rb rc : Reg) : Statement (.sstore ra rb rc) := fun _ => (formatR _ _ _ _).imp_right fun h _ => h
theorem add (ra rb rc : Reg) : Statement (.add ra rb rc) := fun _ => (formatR _ _ _ _).imp_right fun h _ => h
theorem mul (ra rb rc : Reg) : Statement (.mul ra rb rc) := fun _ => (formatR _ _ _ _).imp_right fun h _ => h
theorem div (ra rb rc : Reg) : Statement (.div ra rb rc) := fun _ => (formatR _ _ _ _).imp_right fun h _ => h
theorem nand (ra rb rc : Reg) : Statement (.nand ra rb rc) := fun _ => (formatR _ _ _ _).imp_right fun h _ => h
theorem halt : Statement .halt := fun _ => (formatR _ _ _ _).imp_right fun h _ => h
theorem map (rb rc : Reg) : Statement (.map rb rc) := fun _ => (formatR _ _ _ _).imp_right fun h _ => h
theorem unmap (rc : Reg) : Statement (.unmap rc) := fun _ => (formatR _ _ _ _).imp_right fun h _ => h
theorem out (rc : Reg) : Statement (.out rc) := fun _ => (formatR _ _ _ _).imp_right fun h _ => h
theorem inp (rc : Reg) : Statement (.inp rc) := fun _ => (formatR _ _ _ _).imp_right fun h _ => h
theorem loadp (rb rc : Reg) : Statement (.loadp rb rc) := fun _ => (formatR _ _ _ _).imp_right fun h _ => h
theorem loadi (rl : Reg) (imm : Word) : Statement (.loadi rl imm) := fun hwf =>
  ⟨bitField_wordL_op _ _ (of_decide_eq_true hwf), fun h => absurd rfl h⟩

end Sys2Proof.Laws.Encoding
end

