-- ==== Sys2Proof/Laws/Step.lean ====
section
/-! SUPPORT. What an instruction and a step can do, said once: `Effect` lists the states `exec` can answer and `StepEffect` those
`step` can answer, so that a proof about every instruction or every step is one case split. -/

namespace Sys2Proof.Machine

/-! ### The input cycle -/

/-- What the input cycle leaves alone, whatever the environment answers. -/
theorem State.takeInput_frame (s : State) (r : Reg) :
    (s.takeInput r).run = s.run ∧ (s.takeInput r).mem = s.mem ∧ (s.takeInput r).ip = s.ip ∧
      (s.takeInput r).limits = s.limits ∧ (s.takeInput r).outlog = s.outlog ∧ (s.takeInput r).input = s.input ∧
      (s.takeInput r).faultIp = s.faultIp ∧ ∀ q, q ≠ r → (s.takeInput r).get q = s.get q := by
  unfold State.takeInput
  split
  · exact ⟨rfl, rfl, rfl, rfl, rfl, rfl, rfl, fun _ hq => State.get_setReg_other _ _ hq⟩
  · exact ⟨rfl, rfl, rfl, rfl, rfl, rfl, rfl, fun _ hq => State.get_setReg_other _ _ hq⟩
  · exact ⟨rfl, rfl, rfl, rfl, rfl, rfl, rfl, fun _ _ => rfl⟩

/-! ### The words held by all segments -/

theorem sum_len_set (l : List Segment) (k : Nat) (g : Segment) (h : k < l.length) :
    ((l.set k g).map (fun g => g.len.toNat)).sum + (l.getD k Segment.empty).len.toNat =
      (l.map (fun g => g.len.toNat)).sum + g.len.toNat := by
  induction l generalizing k with
  | nil => simp at h
  | cons a t ih =>
    cases k with
    | zero => simp; omega
    | succ k =>
      have := ih k (by simpa using h)
      simp at this ⊢
      omega

/-- Replacing a segment of the table changes the total by the difference of the lengths. -/
theorem Memory.totalWords_setSegment (m : Memory) (i : Word) (g : Segment) (h : i.toNat < m.seg.length) :
    (m.setSegment i g).totalWords + (m.len i).toNat = m.totalWords + g.len.toNat :=
  sum_len_set _ _ _ h

/-! ### Dispatch -/

/-- The end of an instruction that maps what an operation answers: its result, or the fatal entry. -/
theorem State.finish_map_cases {α : Type} {s t : State} {e : Except Cause α} {f : α → State}
    (h : s.finish (e.map f) = .next t) : (∃ a, e = .ok a ∧ t = f a) ∨ (∃ c, e = .error c ∧ t = s.raise c) := by
  cases e with
  | ok a => cases h; exact .inl ⟨a, rfl, rfl⟩
  | error c => cases h; exact .inr ⟨c, rfl, rfl⟩

/-- The fatal conditions each instruction can raise, and when (R143). -/
inductive Raises (s : State) : Instr → Cause → Prop where
  | div (ra rb rc : Reg) (h : s.get rc = 0#32) : Raises s (.div ra rb rc) .divideByZero
  | out (rc : Reg) (h : 255#32 < s.get rc) : Raises s (.out rc) .outputRange
  | sload (ra rb rc : Reg) (h : ¬ s.mem.Valid (s.get rb) (s.get rc)) : Raises s (.sload ra rb rc) .invalidAccess
  | sstore (ra rb rc : Reg) (h : ¬ s.mem.Valid (s.get ra) (s.get rb)) : Raises s (.sstore ra rb rc) .invalidAccess
  | unmap (rc : Reg) (h : s.get rc = 0#32 ∨ ¬ s.mem.Mapped (s.get rc)) : Raises s (.unmap rc) .invalidUnmap
  | map (rb rc : Reg) (h : s.mem.exhausted s.limits (s.get rc) = true) : Raises s (.map rb rc) .resourceExhausted
  | loadp (rb rc : Reg) (h0 : s.get rb ≠ 0#32) (h : ¬ s.mem.Mapped (s.get rb)) : Raises s (.loadp rb rc) .invalidAccess
  | loadpFull (rb rc : Reg) (h0 : s.get rb ≠ 0#32) (h : s.mem.Mapped (s.get rb))
      (hx : Limits.exceededBy s.limits (s.mem.setSegment 0#32 (s.mem.segment (s.get rb))).totalWords = true) :
      Raises s (.loadp rb rc) .resourceExhausted

/-- The states an instruction can leave. -/
inductive Effect (i : Instr) (s : State) : State → Prop where
  | raised (c : Cause) (h : Raises s i c) : Effect i s (s.raise c)
  | unmoved (ra rb rc : Reg) (hi : i = .cmov ra rb rc) (h : s.get rc = 0#32) : Effect i s s
  | register (r : Reg) (v : Word) (hd : destination i = some r) (hmap : ∀ rb rc, i ≠ .map rb rc)
      (hin : ∀ rc, i ≠ .inp rc) : Effect i s (s.setReg r v)
  | halted (hi : i = .halt) : Effect i s (s.setRun .halted)
  | input (rc : Reg) (hi : i = .inp rc) : Effect i s (s.takeInput rc)
  | output (rc : Reg) (hi : i = .out rc) (h : ¬ 255#32 < s.get rc) : Effect i s (s.outputByte ((s.get rc).setWidth 8))
  | stored (ra rb rc : Reg) (m : Memory) (hi : i = .sstore ra rb rc)
      (h : s.mem.write (s.get ra) (s.get rb) (s.get rc) = .ok m) : Effect i s (s.setMem m)
  | unmapped (rc : Reg) (m : Memory) (hi : i = .unmap rc) (h : s.mem.deallocate (s.get rc) = .ok m) :
      Effect i s (s.setMem m)
  | mapped (rb rc : Reg) (k : Word) (m : Memory) (hi : i = .map rb rc)
      (h : s.mem.allocate s.limits (s.get rc) = .ok (k, m)) : Effect i s ((s.setMem m).setReg rb k)
  | jumped (rb rc : Reg) (hi : i = .loadp rb rc) (h : s.get rb = 0#32) : Effect i s ((s.setMem s.mem).setIp (s.get rc))
  | loaded (rb rc : Reg) (m : Memory) (hi : i = .loadp rb rc) (h0 : s.get rb ≠ 0#32)
      (h : s.mem.loadProgram s.limits (s.get rb) = .ok m) : Effect i s ((s.setMem m).setIp (s.get rc))

/-- Everything an instruction can do. -/
theorem exec_effect {i : Instr} {s t : State} (h : exec i s = .next t) : Effect i s t := by
  cases i with
  | cmov ra rb rc =>
    simp only [exec, execCmov] at h
    cases h
    by_cases hc : s.get rc = 0#32
    · rw [if_neg (not_not.2 hc)]
      exact .unmoved ra rb rc rfl hc
    · rw [if_pos hc]
      exact .register _ _ rfl (by simp) (by simp)
  | add | mul | nand | loadi => cases h; exact .register _ _ rfl (by simp) (by simp)
  | inp rc => cases h; exact .input rc rfl
  | halt => cases h; exact .halted rfl
  | div ra rb rc =>
    rcases State.finish_map_cases h with ⟨a, -, rfl⟩ | ⟨c, e, rfl⟩
    · exact .register _ _ rfl (by simp) (by simp)
    · unfold quotient at e
      split at e <;> cases e
      exact .raised _ (.div ra rb rc ‹_›)
  | sload ra rb rc =>
    rcases State.finish_map_cases h with ⟨a, -, rfl⟩ | ⟨c, e, rfl⟩
    · exact .register _ _ rfl (by simp) (by simp)
    · rcases s.mem.read_cases (s.get rb) (s.get rc) with ⟨-, e'⟩ | ⟨hv, e'⟩ <;> rw [e'] at e <;> cases e
      exact .raised _ (.sload ra rb rc hv)
  | out rc =>
    rcases State.finish_map_cases h with ⟨a, e, rfl⟩ | ⟨c, e, rfl⟩ <;> unfold outputValue at e <;> split at e <;> cases e
    · exact .output rc rfl ‹_›
    · exact .raised _ (.out rc ‹_›)
  | sstore ra rb rc =>
    rcases State.finish_map_cases h with ⟨m, e, rfl⟩ | ⟨c, e, rfl⟩
    · exact .stored ra rb rc m rfl e
    · rcases s.mem.write_cases (s.get ra) (s.get rb) (s.get rc) with ⟨-, e'⟩ | ⟨hv, e'⟩ <;> rw [e'] at e <;> cases e
      exact .raised _ (.sstore ra rb rc hv)
  | unmap rc =>
    rcases State.finish_map_cases h with ⟨m, e, rfl⟩ | ⟨c, e, rfl⟩
    · exact .unmapped rc m rfl e
    · rcases s.mem.deallocate_cases (s.get rc) with ⟨hv, e'⟩ | ⟨-, -, e'⟩ <;> rw [e'] at e <;> cases e
      exact .raised _ (.unmap rc hv)
  | map rb rc =>
    rcases State.finish_map_cases h with ⟨⟨k, m⟩, e, rfl⟩ | ⟨c, e, rfl⟩
    · exact .mapped rb rc k m rfl e
    · rcases s.mem.allocate_cases s.limits (s.get rc) with ⟨hx, e'⟩ | ⟨_, _, _, _, e'⟩ | ⟨-, -, e'⟩ <;>
        rw [e'] at e <;> cases e
      exact .raised _ (.map rb rc hx)
  | loadp rb rc =>
    by_cases h0 : s.get rb = 0#32
    · have e : loadedMemory s (s.get rb) = .ok s.mem := if_neg (not_not.2 h0)
      simp only [exec, execLoadp, e] at h
      cases h
      exact .jumped rb rc rfl h0
    · have e : loadedMemory s (s.get rb) = s.mem.loadProgram s.limits (s.get rb) := if_pos h0
      simp only [exec, execLoadp, e] at h
      rcases State.finish_map_cases h with ⟨m, e, rfl⟩ | ⟨c, e, rfl⟩
      · exact .loaded rb rc m rfl h0 e
      · rcases s.mem.loadProgram_cases s.limits (s.get rb) with ⟨hv, e'⟩ | ⟨hv, hx, e'⟩ | ⟨-, -, e'⟩ <;>
          rw [e'] at e <;> cases e
        · exact .raised _ (.loadp rb rc h0 hv)
        · exact .raised _ (.loadpFull rb rc h0 hv hx)

/-! ### The step -/

/-- A new cycle that fetches a word decodes and dispatches it. -/
theorem step_of_fetches {s : State} {w : Word} (h : Fetches s w) : step s = dispatchWord w s.advance := by
  obtain ⟨hr, hw, hm⟩ := h
  simp [step, hr, runningStep, hw, newCycle, State.fetch, hm]

theorem fetches_unique {s : State} {w w' : Word} (h : Fetches s w) (h' : Fetches s w') : w = w' :=
  Except.ok.inj (h.2.2.symm.trans h'.2.2)

/-- The states a step can leave. -/
inductive StepEffect (s : State) : State → Prop where
  | terminal (h : s.run ≠ .running) : StepEffect s s
  | resumed (r : Reg) (hr : s.run = .running) (hw : s.waiting = some r) : StepEffect s (s.takeInput r)
  | fetchFault (hr : s.run = .running) (hw : s.waiting = none) (h : ¬ s.mem.Valid 0#32 s.ip) :
      StepEffect s (s.fatalAt s.ip .fetchOutOfRange)
  | badOpcode (w : Word) (hf : Fetches s w) (e : DecodeError) (h : decode w = .error e) :
      StepEffect s (s.advance.raise .invalidOpcode)
  | executed (w : Word) (i : Instr) (t : State) (hf : Fetches s w) (hd : decode w = .ok i) (h : exec i s.advance = .next t) :
      StepEffect s t

/-- Everything a step can do. -/
theorem step_effect {s t : State} (h : step s = .next t) : StepEffect s t := by
  cases hr : s.run with
  | halted => simp only [step, hr] at h; cases h; exact .terminal (by simp [hr])
  | fatal c => simp only [step, hr] at h; cases h; exact .terminal (by simp [hr])
  | running =>
    cases hw : s.waiting with
    | some r => simp only [step, hr, runningStep, hw] at h; cases h; exact .resumed r hr hw
    | none =>
      rcases s.fetch_cases with ⟨w, e, -⟩ | ⟨hv, hf⟩
      · have hf : Fetches s w := ⟨hr, hw, e⟩
        rw [step_of_fetches hf, dispatchWord] at h
        split at h
        · exact .executed w _ t hf ‹_› h
        · cases h
          exact .badOpcode w hf _ ‹_›
      · simp only [step, hr, runningStep, hw, newCycle, hf] at h
        cases h
        exact .fetchFault hr hw hv

end Sys2Proof.Machine
end

