-- ==== Sys2Proof/Tests/Slice0.lean ====
section
/-! SUPPORT. The model's own tests: well-formedness, one word a constructor written out from the encoding tables, single steps
whose results are those of spec/95_test_vectors.md, and a witness for the hypotheses of each statement that has some. -/

namespace Sys2Proof.Tests

open Sys2Proof.Machine

/-! ### Well-formedness (R80) -/

theorem test_wf_refuses_long_literal : (Instr.loadi .r0 0x02000000#32).wellFormed = false := by decide
theorem test_wf_takes_largest_literal : (Instr.loadi .r7 0x01FFFFFF#32).wellFormed = true := by decide

/-! ### Decoding: words written out bit by bit from R71, R72, R75, R76 -/

theorem test_decode_cmov : decode 0b0000_0000000000000000000_001_010_011#32 = .ok (.cmov .r1 .r2 .r3) := by decide
theorem test_decode_sload : decode 0b0001_0000000000000000000_111_011_101#32 = .ok (.sload .r7 .r3 .r5) := by decide
theorem test_decode_sstore : decode 0b0010_0000000000000000000_011_101_110#32 = .ok (.sstore .r3 .r5 .r6) := by decide
theorem test_decode_add : decode 0b0011_1111111111111111111_011_001_010#32 = .ok (.add .r3 .r1 .r2) := by decide
theorem test_decode_mul : decode 0b0100_0000000000000000000_101_001_100#32 = .ok (.mul .r5 .r1 .r4) := by decide
theorem test_decode_div : decode 0b0101_0000000000000000000_110_101_100#32 = .ok (.div .r6 .r5 .r4) := by decide
theorem test_decode_nand : decode 0b0110_0000000000000000000_001_000_000#32 = .ok (.nand .r1 .r0 .r0) := by decide
theorem test_decode_halt : decode 0b0111_1111111111111111111_111_111_111#32 = .ok .halt := by decide
theorem test_decode_map : decode 0b1000_0000000000000000000_111_010_001#32 = .ok (.map .r2 .r1) := by decide
theorem test_decode_unmap : decode 0b1001_0000000000000000000_000_000_011#32 = .ok (.unmap .r3) := by decide
theorem test_decode_out : decode 0b1010_1111111111111111111_111_111_000#32 = .ok (.out .r0) := by decide
theorem test_decode_in : decode 0b1011_0000000000000000000_000_000_001#32 = .ok (.inp .r1) := by decide
theorem test_decode_loadp : decode 0b1100_0000000000000000000_000_010_000#32 = .ok (.loadp .r2 .r0) := by decide
theorem test_decode_loadi : decode 0b1101_001_0000000000000000111111111#32 = .ok (.loadi .r1 511#32) := by decide
theorem test_decode_op14 : decode 0xE0000000#32 = .error (.invalidOpcode 14#4) := by decide
theorem test_decode_op15 : decode 0xFFFFFFFF#32 = .error (.invalidOpcode 15#4) := by decide

/-- The assembler's words of R80, as 95_test_vectors.md section 2.1 lists them. -/
theorem test_encode_words :
    encode (.cmov .r1 .r2 .r3) = 0x00000053#32 ∧ encode (.add .r3 .r1 .r2) = 0x300000CA#32 ∧
      encode (.map .r2 .r1) = 0x80000011#32 ∧ encode .halt = 0x70000000#32 ∧
      encode (.loadi .r7 0x01FFFFFF#32) = 0xDFFFFFFF#32 := by decide

/-! ### Small states -/

/-- The state a step leaves. -/
def after : Host.Outcome State Fault Refusal → State
  | .next t => t
  | .fault r => nomatch r
  | .refused _ => State.reset

/-- A machine at offset 0 of a one-word program, with the segments `more` mapped as 1, 2, ... and registers `x`. -/
def small (w : Word) (x : Regs) (more : List Segment) : State :=
  { State.reset with regs := x, mem := { seg := Segment.ofWords [w] :: more, free := [] } }

/-- Registers with x[1], x[2], x[3] given and the others 0. -/
def regs3 (a b c : Word) : Regs := { Regs.zero with r1 := a, r2 := b, r3 := c }

/-- A memory in which id 2 is mapped with 3 words and id 1 is unmapped. -/
def holedMemory : Memory :=
  { seg := [Segment.ofWords [0x70000000#32], Segment.empty, Segment.zeros 3#32], free := [1#32] }

/-! ### Single steps (95_test_vectors.md sections 2.2 to 2.5) -/

theorem test_cmov_all_ones : (after (step (small 0x00000053#32 (regs3 5#32 9#32 0xFFFFFFFF#32) []))).get .r1 = 9#32 := by
  decide
theorem test_cmov_zero : (after (step (small 0x00000053#32 (regs3 5#32 9#32 0#32) []))).get .r1 = 5#32 := by decide
theorem test_add_wraps : (after (step (small 0x300000CA#32 (regs3 0xFFFFFFFF#32 1#32 7#32) []))).get .r3 = 0#32 := by
  decide
theorem test_mul_low_half :
    (after (step (small 0x40000053#32 (regs3 0#32 0x12345678#32 0x9ABCDEF0#32) []))).get .r1 = 0x242D2080#32 := by decide
theorem test_div_unsigned :
    (after (step (small 0x5000000A#32 (regs3 0xFFFFFFFE#32 2#32 0#32) []))).get .r0 = 0x7FFFFFFF#32 := by decide
theorem test_div_by_zero :
    let t := after (step (small 0x5000000A#32 (regs3 7#32 0#32 0#32) []))
    t.status = .fatal 2 0#32 ∧ t.ip = 1#32 ∧ t.get .r0 = 0#32 := by decide
theorem test_nand :
    (after (step (small 0x60000053#32 (regs3 0#32 0xF0F0F0F0#32 0xFF00FF00#32) []))).get .r1 = 0x0FFF0FFF#32 := by decide
theorem test_loadi_largest : (after (step (small 0xDFFFFFFF#32 Regs.zero []))).get .r7 = 0x01FFFFFF#32 := by decide
/-- `map r2, r1`: the first new id is 1; with the table full (MAX_SEGMENTS of R6 at 1) it is the fatal condition of code 7
(R49, R141). -/
theorem test_map_first_id_or_exhausted :
    let t := after (step (small 0x80000011#32 (regs3 3#32 0#32 0#32) []))
    let full := { small 0x80000011#32 Regs.zero [] with limits := { maxSegments := 1, memCapacity := none } }
    t.get .r2 = 1#32 ∧ t.mem.len 1#32 = 3#32 ∧ t.mem.read 1#32 2#32 = .ok 0#32 ∧
      (after (step full)).status = .fatal 7 0#32 := by decide
theorem test_map_reuses_freed_id :
    (after (exec (.map .r2 .r1) { small 0#32 (regs3 4#32 0#32 0#32) [] with mem := holedMemory })).mem =
      { seg := [Segment.ofWords [0x70000000#32], Segment.zeros 4#32, Segment.zeros 3#32], free := [] } := by decide
theorem test_unmap_pushes_id :
    let t := after (step (small 0x90000001#32 (regs3 1#32 0#32 0#32) [Segment.ofWords [7#32]]))
    t.mem.free = [1#32] ∧ t.mem.read 1#32 0#32 = .error .invalidAccess ∧ t.get .r1 = 1#32 := by decide
theorem test_unmap_zero : (after (step (small 0x90000000#32 Regs.zero []))).status = .fatal 5 0#32 := by decide
theorem test_sload_own_word : (after (step (small 0x10000000#32 Regs.zero []))).get .r0 = 0x10000000#32 := by decide
theorem test_sload_at_length :
    (after (step (small 0x10000013#32 (regs3 0#32 1#32 3#32) [Segment.zeros 3#32]))).status = .fatal 4 0#32 := by decide
theorem test_sstore_last_word :
    (after (exec (.sstore .r1 .r2 .r3) (small 0#32 (regs3 1#32 2#32 0x4D2#32) [Segment.zeros 3#32]))).mem.seg[1]? =
      some (Segment.ofWords [0#32, 0#32, 0x4D2#32]) := by decide
theorem test_sstore_of_zero_is_canonical :
    (after (exec (.sstore .r1 .r2 .r3) (small 0#32 (regs3 1#32 0#32 0#32) [Segment.ofWords [9#32]]))).mem.seg[1]? =
      some (Segment.zeros 1#32) := by decide
theorem test_out_255 : (after (step (small 0xA0000001#32 (regs3 255#32 0#32 0#32) []))).outlog = [0xFF#8] := by decide
theorem test_out_256 :
    let t := after (step (small 0xA0000001#32 (regs3 256#32 0#32 0#32) []))
    t.status = .fatal 3 0#32 ∧ t.outlog = [] := by decide
theorem test_in_byte_255 :
    let t := after (step { small 0xB0000001#32 Regs.zero [] with input := { bytes := [0xFF#8], ended := true } })
    t.get .r1 = 0x000000FF#32 ∧ t.inpos = 1 ∧ t.eos = false := by decide
theorem test_in_exhausted :
    let t := after (step { small 0xB0000001#32 Regs.zero [] with input := { bytes := [], ended := true } })
    t.get .r1 = 0xFFFFFFFF#32 ∧ t.eos = true ∧ t.run = .running := by decide
theorem test_halt : (after (step (small 0x70000000#32 Regs.zero []))).run = .halted ∧
    (after (step (small 0x70000000#32 Regs.zero []))).ip = 1#32 := by decide
theorem test_loadp_zero_jumps :
    let t := after (step (small 0xC0000001#32 (regs3 5#32 0#32 0#32) []))
    t.ip = 5#32 ∧ t.mem = (small 0xC0000001#32 Regs.zero []).mem := by decide
theorem test_loadp_copies :
    let t := after (step (small 0xC0000010#32 (regs3 0#32 1#32 0#32) [Segment.ofWords [0xA0000007#32, 0x70000000#32]]))
    t.ip = 0#32 ∧ t.mem.seg[0]? = t.mem.seg[1]? ∧ t.mem.read 0#32 1#32 = .ok 0x70000000#32 := by decide
theorem test_invalid_opcode :
    let t := after (step (small 0xF0000000#32 Regs.zero []))
    t.status = .fatal 1 0#32 ∧ t.ip = 1#32 := by decide
theorem test_reset_without_program : (after (step State.reset)).status = .fatal 6 0#32 := by decide
/-- The first cycle of program P1, booted. -/
theorem test_boot_then_first_cycle :
    let t := after (step (applyReset (BootImage.mk [0xD0000048#32, 0xA0000000#32, 0x70000000#32] (by decide))
      InStream.empty State.reset))
    t.get .r0 = 72#32 ∧ t.ip = 1#32 ∧ t.mem.read 0#32 2#32 = .ok 0x70000000#32 := by decide
theorem test_first_instruction_after_reset :
    (after (step (State.reset.withFetchWord 32 0xD0000048))).get .r0 = 72#32 := by decide

/-! ### Witnesses: for each statement with hypotheses, a case that meets all of them, clause by clause -/

/-- A machine about to fetch `w`, with two more mapped segments, registers and room. -/
def ready (w : Word) : State := small w (regs3 1#32 2#32 3#32) [Segment.zeros 2#32, Segment.ofWords [5#32, 6#32, 7#32]]

theorem witness_resetBoot : (BootImage.mk [5#32, 0#32] (by decide)).words[(1#32).toNat]? = some 0#32 := rfl
theorem witness_emptyBoot : (BootImage.mk [] (by decide)).words = [] := rfl
theorem witness_everyReset : State.reset.limits.Legal := by decide
theorem witness_decodeOfEncode : (Instr.loadi .r7 0x01FFFFFF#32).WellFormed ∧ (Instr.div .r6 .r5 .r4).WellFormed := by decide
theorem witness_decodedWellFormed : decode 0xDFFFFFFF#32 = .ok (.loadi .r7 0x01FFFFFF#32) := by decide
theorem witness_unusedBits :
    (0x300000CA#32 &&& 0xF00001FF#32 = 0x3FFFFECA#32 &&& 0xF00001FF#32 ∧ (0x300000CA#32).toNat / 2 ^ 28 ≠ 13) ∧
      (0xC0000011#32 &&& 0xF000003F#32 = 0xCFFFFFD1#32 &&& 0xF000003F#32 ∧ (0xC0000011#32).toNat / 2 ^ 28 = 12) ∧
      (0xB0000001#32 &&& 0xF0000007#32 = 0xBFFFFFF9#32 &&& 0xF0000007#32 ∧ 9 ≤ (0xB0000001#32).toNat / 2 ^ 28 ∧
        (0xB0000001#32).toNat / 2 ^ 28 ≤ 11) ∧
      (0x70000000#32 &&& 0xF0000000#32 = 0x7FFFFFFF#32 &&& 0xF0000000#32 ∧ (0x70000000#32).toNat / 2 ^ 28 = 7) := by
  decide
theorem witness_invalidOpcode : Fetches (ready 0xE0000000#32) 0xE0000000#32 ∧ 0xE0000000#32 ≤ 0xE0000000#32 := by decide
theorem witness_stepRuns : Fetches (ready 0x300000CA#32) 0x300000CA#32 ∧
    decode 0x300000CA#32 = .ok (.add .r3 .r1 .r2) := by decide
theorem witness_fetchOutside : State.reset.run = .running ∧ State.reset.waiting = none ∧
    ¬ State.reset.mem.Valid 0#32 State.reset.ip := by decide
theorem witness_terminal : ((ready 0#32).setRun .halted).run ≠ .running ∧
    ((ready 0#32).raise .divideByZero).run ≠ .running := by decide
theorem witness_fatalSteps :
    (State.reset.run = .running ∧ ∃ t, step State.reset = .next t ∧ t.run = .fatal .fetchOutOfRange) ∧
      ((ready 0xF0000000#32).run = .running ∧
        ∃ t, step (ready 0xF0000000#32) = .next t ∧ t.run = .fatal .invalidOpcode) :=
  ⟨⟨rfl, _, rfl, rfl⟩, ⟨rfl, _, rfl, rfl⟩⟩
theorem witness_faultRecord : (ready 0#32).run = .running ∧
    (∃ t, exec (.unmap .r0) (ready 0#32) = .next t ∧ t.run = .fatal .invalidUnmap) ∧
    ∃ t, exec (.unmap .r1) (ready 0#32) = .next t ∧ ∀ c, t.run ≠ .fatal c :=
  ⟨rfl, ⟨_, rfl, rfl⟩, _, rfl, fun _ => Run.noConfusion⟩
theorem witness_haltedOnlyByHalt : (ready 0x70000000#32).run = .running ∧ ∃ t, step (ready 0x70000000#32) = .next t :=
  ⟨rfl, _, rfl⟩
theorem witness_onlyListedRaise : (ready 0#32).run = .running ∧
    ∃ t, exec (.div .r1 .r1 .r0) (ready 0#32) = .next t ∧ t.run = .fatal .divideByZero := ⟨rfl, _, rfl, rfl⟩

/-- A machine whose `in` into r4 waits after one consumed byte. -/
def waitingState : State :=
  { ready 0xB0000004#32 with ip := 1#32, waiting := some .r4, input := { bytes := [9#8], ended := false }, inpos := 1 }

theorem witness_wait : waitingState.run = .running ∧ waitingState.waiting = some .r4 ∧ waitingState.eos = false ∧
    waitingState.inpos = waitingState.input.bytes.length ∧ waitingState.input.ended = false := by decide
theorem witness_waitingStep : waitingState.run = .running ∧ waitingState.waiting = some .r4 := by decide
theorem witness_cmov : (ready 0#32).get .r3 ≠ 0#32 ∧ (ready 0#32).get .r0 = 0#32 := by decide
theorem witness_div : (ready 0#32).get .r1 ≠ 0#32 ∧ (ready 0#32).get .r0 = 0#32 := by decide

/-- `ready` with the free list `[1]`. -/
def holed : State := { ready 0#32 with mem := holedMemory }

/-- `ready` with given limits. -/
def limited (l : Limits) : State := { ready 0#32 with limits := l }

/-- Room by the free list although the table is full, and room by the table with the capacity exactly reached (6 + 3 words). -/
theorem witness_map_room :
    (({ holed with limits := { maxSegments := 3, memCapacity := none } } : State).mem.Wf ∧ holed.mem.free ≠ []) ∧
      (limited { maxSegments := 4, memCapacity := some 9 }).mem.Wf ∧
      (limited { maxSegments := 4, memCapacity := some 9 }).limits.Legal ∧
      (limited { maxSegments := 4, memCapacity := some 9 }).mem.seg.length < 4 ∧
      (limited { maxSegments := 4, memCapacity := some 9 }).mem.totalWords +
        ((limited { maxSegments := 4, memCapacity := some 9 }).get .r3).toNat ≤ 9 := by decide
/-- No room: the table is full, or one word too many for the capacity. -/
theorem witness_map_exhausted :
    ((limited { maxSegments := 3, memCapacity := none }).mem.free = [] ∧
      3 ≤ (limited { maxSegments := 3, memCapacity := none }).mem.seg.length) ∧
      8 < (limited { maxSegments := 4, memCapacity := some 8 }).mem.totalWords +
        ((limited { maxSegments := 4, memCapacity := some 8 }).get .r3).toNat := by decide
theorem witness_unmap : ((ready 0#32).get .r2 ≠ 0#32 ∧ (ready 0#32).mem.Mapped ((ready 0#32).get .r2)) ∧
    (ready 0#32).get .r0 = 0#32 ∧ ¬ (ready 0#32).mem.Mapped ((ready 0#32).get .r3) ∧
    ¬ holed.mem.Mapped (holed.get .r1) := by decide
/-- Segment 2 has 3 words: offset 2 is its last, offset 3 its length. -/
theorem witness_sload : (ready 0#32).mem.Valid ((ready 0#32).get .r2) ((ready 0#32).get .r2) ∧
    ¬ (ready 0#32).mem.Valid ((ready 0#32).get .r2) ((ready 0#32).get .r3) := by decide
theorem witness_sstore : (ready 0#32).mem.Wf ∧ (ready 0#32).mem.Valid ((ready 0#32).get .r2) ((ready 0#32).get .r1) ∧
    ¬ (ready 0#32).mem.Valid ((ready 0#32).get .r1) ((ready 0#32).get .r2) := by decide
theorem witness_lastUnmapped : (ready 0#32).limits.memCapacity = none ∧ (ready 0#32).get .r1 ≠ 0#32 ∧
    (ready 0#32).mem.Mapped ((ready 0#32).get .r1) := by decide
theorem witness_out : ((small 0#32 (regs3 255#32 256#32 0#32) []).get .r1).toNat ≤ 255 ∧
    256 ≤ ((small 0#32 (regs3 255#32 256#32 0#32) []).get .r2).toNat := by decide
theorem witness_in :
    ((waitingState.presentByte 0xFF#8).eos = false ∧
      (waitingState.presentByte 0xFF#8).input.bytes[(waitingState.presentByte 0xFF#8).inpos]? = some 0xFF#8) ∧
      (waitingState.endInput.input.bytes.length ≤ waitingState.endInput.inpos ∧ waitingState.endInput.input.ended = true) ∧
      ({ waitingState with eos := true } : State).eos = true ∧
      (waitingState.eos = false ∧ waitingState.input.bytes.length ≤ waitingState.inpos ∧
        waitingState.input.ended = false) := by decide
/-- The clauses of `loadp`: segment 0, a mapped one within a capacity exactly reached, an unmapped one, one beyond it. -/
theorem witness_loadp :
    ((ready 0#32).mem.Wf ∧ (ready 0#32).get .r0 = 0#32) ∧
      ((ready 0#32).get .r2 ≠ 0#32 ∧ (ready 0#32).mem.Mapped ((ready 0#32).get .r2) ∧
        (ready 0#32).mem.totalWords + ((ready 0#32).mem.len ((ready 0#32).get .r2)).toNat ≤
          8 + ((ready 0#32).mem.len 0#32).toNat) ∧
      ((ready 0#32).get .r3 ≠ 0#32 ∧ ¬ (ready 0#32).mem.Mapped ((ready 0#32).get .r3)) ∧
      7 + ((ready 0#32).mem.len 0#32).toNat <
        (ready 0#32).mem.totalWords + ((ready 0#32).mem.len ((ready 0#32).get .r2)).toNat := by decide
theorem witness_onlyLoadpWritesIp : (∃ t, exec (.inp .r1) (ready 0#32) = .next t) ∧
    ∀ rb rc, Instr.inp .r1 ≠ .loadp rb rc := ⟨⟨_, rfl⟩, fun _ _ => Instr.noConfusion⟩
theorem witness_everyStepKeeps : (ready 0x80000011#32).Inv ∧ waitingState.Inv ∧
    ∃ t, step (ready 0x80000011#32) = .next t := ⟨by decide, by decide, _, rfl⟩
theorem witness_environmentKeeps : ({ waitingState with eos := true, input := { bytes := [9#8], ended := true } } : State).Inv := by
  decide
theorem witness_atMostDestination : (∃ t, exec (.map .r2 .r1) (ready 0#32) = .next t) ∧
    destination (.map .r2 .r1) ≠ some .r1 := ⟨⟨_, rfl⟩, by decide⟩
theorem witness_onlyFourTouchMemory : ∃ t, exec (.sload .r1 .r2 .r2) (ready 0#32) = .next t := ⟨_, rfl⟩
theorem witness_tableNeverShrinks : ∃ t, step (ready 0x90000001#32) = .next t := ⟨_, rfl⟩
theorem witness_mappedUntilUnmapped : (∃ t, exec (.unmap .r1) (ready 0#32) = .next t) ∧ (ready 0#32).mem.Mapped 2#32 ∧
    (ready 0#32).get .r1 ≠ 2#32 := ⟨⟨_, rfl⟩, by decide, by decide⟩
theorem witness_capacityIsKept : (limited { maxSegments := 4, memCapacity := some 6 }).limits.memCapacity = some 6 ∧
    (limited { maxSegments := 4, memCapacity := some 6 }).mem.totalWords ≤ 6 ∧
    ∃ t, step (limited { maxSegments := 4, memCapacity := some 6 }) = .next t := ⟨rfl, by decide, _, rfl⟩
theorem witness_outputFollowsOut : (∃ t, step (ready 0xA0000001#32) = .next t) ∧
    Fetches (ready 0xA0000001#32) 0xA0000001#32 ∧ decode 0xA0000001#32 = .ok (.out .r1) ∧
    ((ready 0xA0000001#32).get .r1).toNat ≤ 255 := ⟨⟨_, rfl⟩, by decide, by decide, by decide⟩
theorem witness_inputInOrder : ∃ t, step (waitingState.presentByte 3#8) = .next t := ⟨_, rfl⟩
theorem witness_onlyInDepends : (∃ t, exec (.out .r1) (ready 0#32) = .next t) ∧ ∀ rc, Instr.out .r1 ≠ .inp rc :=
  ⟨⟨_, rfl⟩, fun _ => Instr.noConfusion⟩

/-- `sstore r0, r1, r2` at 0:0 of a two-word program, with x[1] = 1 and x[2] the word of `halt`. -/
def storing : State :=
  { small 0#32 (regs3 1#32 0x70000000#32 0#32) [] with mem := { seg := [Segment.ofWords [0x2000000A#32, 0#32]], free := [] } }

theorem witness_storeSeen : storing.mem.Wf ∧ Fetches storing 0x2000000A#32 ∧
    decode 0x2000000A#32 = .ok (.sstore .r0 .r1 .r2) ∧ storing.get .r0 = 0#32 ∧ storing.get .r1 = storing.ip + 1#32 ∧
    storing.mem.Valid 0#32 (storing.ip + 1#32) ∧ decode (storing.get .r2) = .ok .halt := by decide
theorem witness_placedWord : State.reset.mem.Wf ∧ State.reset.ip ≠ 0xFFFFFFFF#32 ∧
    decodeTableWord 32 0x80000011 = some (.map .r2 .r1) := by decide

end Sys2Proof.Tests
end

section
/-! PROOFS. The statements of 00_scope.md: what BOOT leaves in the machine (R8), and what appears on OUT (R10). -/

namespace Sys2Proof.Machine

/-! ### The state after `applyReset` -/

@[simp] theorem get_applyReset (boot : BootImage) (input : InStream) (s : State) (r : Reg) :
    (applyReset boot input s).get r = 0#32 := Regs.get_zero r

/-! ### A memory of one segment -/

@[simp] theorem Memory.segment_zero_cons (g : Segment) (l : List Segment) (free : List Word) :
    Memory.segment { seg := g :: l, free := free } 0#32 = g := rfl

/-- A memory whose only segment holds a word sequence answers a read of 0:o with word `o` of the sequence. -/
theorem Memory.read_ofWords {ws : List Word} (fits : ws.length < 2 ^ 32) {o w : Word} (h : ws[o.toNat]? = some w) :
    Memory.read { seg := [Segment.ofWords ws], free := [] } 0#32 o = .ok w := by
  have within : o < (Segment.ofWords ws).len := by
    rw [BitVec.lt_def, Segment.len_ofWords fits]
    exact (List.getElem?_eq_some_iff.1 h).1
  have valid : Memory.Valid { seg := [Segment.ofWords ws], free := [] } 0#32 o := ⟨⟨by simp, by simp⟩, within⟩
  rw [Memory.read_of_valid valid, Memory.segment_zero_cons, Segment.word_ofWords, List.getD_eq_getElem?_getD, h]
  rfl

/-- Settles O1: the registers and `ip` are cleared by definition, and segment 0 is the segment of the image's words. -/
theorem resetPlacesBootImage : Obligations.ResetPlacesBootImage :=
  fun boot input s => ⟨get_applyReset boot input s, rfl, rfl, rfl, Segment.len_ofWords boot.fits,
    fun _ _ h => Memory.read_ofWords boot.fits h⟩

/-! ### The bytes emitted -/

/-- `out` of a value that is a byte emits it (R120). -/
theorem exec_out_of_le {s : State} {rc : Reg} (h : (s.get rc).toNat ≤ 255) :
    exec (.out rc) s = .next (s.outputByte (BitVec.ofNat 8 (s.get rc).toNat)) := by
  have hle : ¬ 255#32 < s.get rc := by
    rw [BitVec.lt_def]
    exact Nat.not_lt.2 h
  rw [BitVec.ofNat_toNat]
  simp only [exec, execOut, outputValue, if_neg hle]
  rfl

/-- The input cycle emits nothing. -/
@[simp] theorem State.takeInput_outlog (s : State) (r : Reg) : (s.takeInput r).outlog = s.outlog := by
  obtain ⟨-, -, -, -, houtlog, -⟩ := s.takeInput_frame r
  exact houtlog

/-- An instruction that is no `out` of a byte emits nothing. -/
theorem Effect.outlog_eq {i : Instr} {s t : State} (h : Effect i s t)
    (hout : ∀ rc, i = .out rc → 256 ≤ (s.get rc).toNat) : t.outlog = s.outlog := by
  cases h with
  | output rc hi hle =>
    have hlt : 255#32 < s.get rc := BitVec.lt_def.2 (hout rc hi)
    exact absurd hlt hle
  | input rc hi => exact s.takeInput_outlog rc
  | raised | unmoved | register | halted | stored | unmapped | mapped | jumped | loaded => rfl

/-- Settles O44: a fetched `out` of a byte is one equation, and every other step is one of those `StepEffect` lists. -/
theorem outputFollowsOutInstructions : Obligations.OutputFollowsOutInstructions := by
  intro s t hstep
  refine ⟨fun w rc hf hd hle => ?_, fun hout => ?_⟩
  · have emits : step s = .next (s.advance.outputByte (BitVec.ofNat 8 (s.get rc).toNat)) := by
      simp only [step_of_fetches hf, dispatchWord, hd]
      exact exec_out_of_le hle
    cases hstep.symm.trans emits
    rfl
  · cases step_effect hstep with
    | terminal | fetchFault | badOpcode => rfl
    | resumed r => exact s.takeInput_outlog r
    | executed w i _ hf hd he => exact (exec_effect he).outlog_eq fun rc hi => hout w rc hf (hi ▸ hd)

end Sys2Proof.Machine
end

section
/-! PROOFS. The statement of 20_memory.md: a store changes exactly one word of memory (R51). -/

namespace Sys2Proof.Machine

/-! ### A segment of the table replaced -/

@[simp] theorem Memory.mapped_setSegment (m : Memory) (i j : Word) (g : Segment) :
    (m.setSegment i g).Mapped j ↔ m.Mapped j := by
  simp only [Memory.Mapped, Memory.setSegment_length, Memory.setSegment_free]

/-- Replacing a segment by one of the same length changes no length. -/
theorem Memory.len_setSegment {m : Memory} {i : Word} {g : Segment} (hi : i.toNat < m.seg.length)
    (hg : g.len = m.len i) (j : Word) : (m.setSegment i g).len j = m.len j := by
  unfold Memory.len
  by_cases hj : j = i
  · rw [hj, Memory.segment_setSegment_self g hi]
    exact hg
  · rw [Memory.segment_setSegment_other m g hj]

/-! ### The memory a write answers (R51) -/

/-- A write that succeeds was to a valid address, and replaces the word in its segment. -/
theorem Memory.write_ok {m m' : Memory} {i o v : Word} (h : m.write i o v = .ok m') :
    m.Valid i o ∧ m' = m.setSegment i ((m.segment i).setWord o v) := by
  rcases m.write_cases i o v with ⟨hv, e⟩ | ⟨-, e⟩ <;> rw [e] at h <;> cases h
  exact ⟨hv, rfl⟩

theorem Memory.free_write {m m' : Memory} {i o v : Word} (h : m.write i o v = .ok m') : m'.free = m.free := by
  obtain ⟨-, rfl⟩ := Memory.write_ok h
  rfl

theorem Memory.length_write {m m' : Memory} {i o v : Word} (h : m.write i o v = .ok m') :
    m'.seg.length = m.seg.length := by
  obtain ⟨-, rfl⟩ := Memory.write_ok h
  exact Memory.setSegment_length m i _

theorem Memory.mapped_write {m m' : Memory} {i o v : Word} (h : m.write i o v = .ok m') (j : Word) :
    m'.Mapped j ↔ m.Mapped j := by
  obtain ⟨-, rfl⟩ := Memory.write_ok h
  exact Memory.mapped_setSegment m i j _

theorem Memory.len_write {m m' : Memory} {i o v : Word} (h : m.write i o v = .ok m') (j : Word) :
    m'.len j = m.len j := by
  obtain ⟨⟨⟨hi, -⟩, -⟩, rfl⟩ := Memory.write_ok h
  exact Memory.len_setSegment hi (Segment.len_setWord _ o v) j

/-- The address written reads the word written: this is where the canonical form is needed. -/
theorem Memory.read_write_self {m m' : Memory} (hm : m.Wf) {i o v : Word} (h : m.write i o v = .ok m') :
    m'.read i o = .ok v := by
  have valid' : m'.Valid i o := by
    rw [Memory.Valid, Memory.mapped_write h, Memory.len_write h]
    exact (Memory.write_ok h).1
  obtain ⟨⟨⟨hi, -⟩, -⟩, rfl⟩ := Memory.write_ok h
  rw [Memory.read_of_valid valid', Memory.segment_setSegment_self _ hi,
    Segment.word_setWord_self (Memory.segment_wf hm i)]

/-- Every address but the one written reads as before: another segment is the same segment, and in the segment written
every other offset holds the same word. -/
theorem Memory.read_write_other {m m' : Memory} {i o v : Word} (h : m.write i o v = .ok m') {j q : Word}
    (hne : ¬ (j = i ∧ q = o)) : m'.read j q = m.read j q := by
  refine Memory.read_congr (Memory.mapped_write h j) (Memory.len_write h j) fun _ => ?_
  obtain ⟨⟨⟨hi, -⟩, -⟩, rfl⟩ := Memory.write_ok h
  by_cases hj : j = i
  · subst hj
    have hq : q ≠ o := fun e => hne ⟨rfl, e⟩
    rw [Memory.segment_setSegment_self _ hi, Segment.word_setWord_other _ v hq]
  · rw [Memory.segment_setSegment_other m _ hj]

/-! ### The fatal entry -/

/-- Raising a fatal condition changes nothing but the run state and the fault record (R140). -/
theorem State.stoppedBy_raise (s : State) (c : Cause) : StoppedBy c s (s.raise c) :=
  ⟨rfl, fun _ => rfl, ⟨rfl, rfl, fun _ => rfl, fun _ _ => rfl⟩, rfl, rfl, rfl, rfl, rfl, rfl⟩

/-! ### sstore (R113) -/

theorem exec_sstore_of_write {s : State} {ra rb rc : Reg} {m : Memory}
    (h : s.mem.write (s.get ra) (s.get rb) (s.get rc) = .ok m) : exec (.sstore ra rb rc) s = .next (s.setMem m) := by
  simp only [exec, execSstore, h]
  rfl

theorem exec_sstore_of_write_error {s : State} {ra rb rc : Reg} {c : Cause}
    (h : s.mem.write (s.get ra) (s.get rb) (s.get rc) = .error c) : exec (.sstore ra rb rc) s = .next (s.raise c) := by
  simp only [exec, execSstore, h]
  rfl

/-- Settles O30: at a valid address the next state differs in its memory alone, which is the one the write answers; at any
other it is the fatal entry. -/
theorem sstoreWritesOneWordOrFatal : Obligations.SstoreWritesOneWordOrFatal := by
  intro ra rb rc s hm
  rcases s.mem.write_cases (s.get ra) (s.get rb) (s.get rc) with ⟨hv, hw⟩ | ⟨hv, hw⟩
  · refine ⟨fun _ => ⟨_, exec_sstore_of_write hw, ?_⟩, fun hn => absurd hv hn⟩
    exact ⟨Memory.read_write_self hm hw, fun _ _ hne => Memory.read_write_other hw hne, Memory.free_write hw,
      Memory.length_write hw, Memory.len_write hw, fun _ => rfl, rfl, ⟨rfl, rfl, rfl⟩, rfl, rfl, rfl, rfl⟩
  · exact ⟨fun h => absurd h hv, fun _ => ⟨_, exec_sstore_of_write_error hw, s.stoppedBy_raise .invalidAccess⟩⟩

end Sys2Proof.Machine
end

section
/-! PROOFS. The statement of 30_encoding.md: the words whose opcode field names no instruction (R78). -/

namespace Sys2Proof

/-! ### The opcode field and the word -/

/-- The opcode field is the top four bits, so its value is the word's divided by 2^28. -/
theorem toNat_fieldOP (w : Word) : (fieldOP w).toNat = w.toNat / 2 ^ 28 := by
  have hw : w.toNat / 2 ^ 28 < 2 ^ 4 := by omega
  rw [fieldOP, bitField, BitVec.toNat_ofNat, Nat.shiftRight_eq_div_pow, Nat.mod_eq_of_lt hw]

/-- The two numbers without an instruction are the top of the opcode field, and fill the top of the word space. -/
theorem fourteen_le_fieldOP (w : Word) : 14 ≤ fieldOP w ↔ 0xE0000000#32 ≤ w := by
  rw [BitVec.le_def, BitVec.le_def, toNat_fieldOP]
  simp only [BitVec.reduceToNat]
  omega

/-- The decoder fails exactly where the opcode table has no operation. -/
theorem decode_eq_error (w : Word) : (∃ e, decode w = .error e) ↔ Op.ofNumber (fieldOP w) = none := by
  unfold decode
  cases Op.ofNumber (fieldOP w) with
  | some o => simp
  | none => simp

/-- The words that fail to decode are an upper interval of the word space (R78). -/
theorem decode_eq_error_iff_le (w : Word) : (∃ e, decode w = .error e) ↔ 0xE0000000#32 ≤ w := by
  rw [decode_eq_error, Op.ofNumber_eq_none, fourteen_le_fieldOP]

end Sys2Proof

namespace Sys2Proof.Machine

/-! ### Executing such a word -/

/-- A word that fails to decode goes to the fatal entry without reaching `exec`. -/
theorem dispatchWord_of_decode_error {w : Word} {e : DecodeError} (h : decode w = .error e) (s : State) :
    dispatchWord w s = .next (s.raise .invalidOpcode) := by
  rw [dispatchWord, h]

/-- Settles O10: the decoder fails on an upper interval of the words, and the cycle that fetches one is the fatal entry on
the advanced state, which differs from the state before only in `ip`. -/
theorem invalidOpcodeWordsAreFatal : Obligations.InvalidOpcodeWordsAreFatal := by
  refine ⟨decode_eq_error_iff_le, fun s w hf hle => ?_⟩
  obtain ⟨e, he⟩ := (decode_eq_error_iff_le w).2 hle
  have hstep : step s = .next (s.advance.raise .invalidOpcode) := by
    rw [step_of_fetches hf, dispatchWord_of_decode_error he]
  obtain ⟨hrun, hregs, hmem, -, -, hio⟩ := s.advance.stoppedBy_raise .invalidOpcode
  exact ⟨_, hstep, hrun, hregs, hmem, hio⟩

end Sys2Proof.Machine
end

section
/-! PROOFS. The statements of 41_alu.md: the register and arithmetic instructions (R100 to R105). Each has its equation for
`exec`; the frame is that of one register write. -/

namespace Sys2Proof.Machine

/-! ### The frame of a register write -/

/-- Writing a register changes that register and nothing else. -/
theorem State.onlyRegister_setReg (s : State) (r : Reg) (v : Word) : OnlyRegister r s (s.setReg r v) :=
  ⟨fun _ hq => State.get_setReg_other s v hq, rfl, ⟨rfl, rfl, fun _ => rfl, fun _ _ => rfl⟩, ⟨rfl, rfl, rfl⟩,
    rfl, rfl, rfl, rfl⟩

/-! ### What each instruction answers -/

theorem exec_cmov_of_ne {s : State} {rc : Reg} (h : s.get rc ≠ 0#32) (ra rb : Reg) :
    exec (.cmov ra rb rc) s = .next (s.setReg ra (s.get rb)) := by
  simp only [exec, execCmov, if_pos h]

theorem exec_cmov_of_eq {s : State} {rc : Reg} (h : s.get rc = 0#32) (ra rb : Reg) :
    exec (.cmov ra rb rc) s = .next s := by
  simp only [exec, execCmov, if_neg (not_not.2 h)]

theorem exec_add (ra rb rc : Reg) (s : State) :
    exec (.add ra rb rc) s = .next (s.setReg ra (s.get rb + s.get rc)) := rfl

theorem exec_mul (ra rb rc : Reg) (s : State) :
    exec (.mul ra rb rc) s = .next (s.setReg ra (s.get rb * s.get rc)) := rfl

theorem exec_div_of_ne {s : State} {rc : Reg} (h : s.get rc ≠ 0#32) (ra rb : Reg) :
    exec (.div ra rb rc) s = .next (s.setReg ra (s.get rb / s.get rc)) := by
  simp only [exec, execDiv, quotient, if_neg h]
  rfl

theorem exec_div_of_eq {s : State} {rc : Reg} (h : s.get rc = 0#32) (ra rb : Reg) :
    exec (.div ra rb rc) s = .next (s.raise .divideByZero) := by
  simp only [exec, execDiv, quotient, if_pos h]
  rfl

theorem exec_nand (ra rb rc : Reg) (s : State) :
    exec (.nand ra rb rc) s = .next (s.setReg ra (~~~ (s.get rb &&& s.get rc))) := rfl

theorem exec_loadi (rl : Reg) (imm : Word) (s : State) :
    exec (.loadi rl imm) s = .next (s.setReg rl imm) := rfl

/-! ### The statements -/

/-- Settles O21: the condition register decides which of the two equations of `cmov` applies. -/
theorem cmovMovesOnNonzero : Obligations.CmovMovesOnNonzero :=
  fun ra rb _ s =>
    ⟨fun h => ⟨_, exec_cmov_of_ne h ra rb, State.get_setReg_self s ra _, s.onlyRegister_setReg ra _⟩,
      fun h => exec_cmov_of_eq h ra rb⟩

/-- Settles O22: the word written is the sum of two words, whose value is the sum of the values modulo 2^32. -/
theorem addIsModularSum : Obligations.AddIsModularSum := by
  intro ra rb rc s
  refine ⟨_, exec_add ra rb rc s, ?_, s.onlyRegister_setReg ra _⟩
  rw [State.get_setReg_self, BitVec.toNat_add]

/-- Settles O23: the word written is the product of two words, whose value is the product of the values modulo 2^32. -/
theorem mulIsModularProduct : Obligations.MulIsModularProduct := by
  intro ra rb rc s
  refine ⟨_, exec_mul ra rb rc s, ?_, s.onlyRegister_setReg ra _⟩
  rw [State.get_setReg_self, BitVec.toNat_mul]

/-- Settles O24: the divisor decides between the write of the unsigned quotient and the fatal entry. -/
theorem divIsUnsignedQuotientOrFatal : Obligations.DivIsUnsignedQuotientOrFatal := by
  intro ra rb rc s
  constructor
  · intro h
    refine ⟨_, exec_div_of_ne h ra rb, ?_, s.onlyRegister_setReg ra _⟩
    rw [State.get_setReg_self, BitVec.toNat_udiv]
  · intro h
    exact ⟨_, exec_div_of_eq h ra rb, s.stoppedBy_raise .divideByZero⟩

/-- Settles O25: the complement of a word inverts each of its 32 bits; above them it has none to invert. -/
theorem nandIsBitwise : Obligations.NandIsBitwise := by
  intro ra rb rc s
  refine ⟨_, exec_nand ra rb rc s, fun i hi => ?_, s.onlyRegister_setReg ra _⟩
  rw [State.get_setReg_self, BitVec.getLsbD_not, BitVec.getLsbD_and, decide_eq_true hi, Bool.true_and]

/-- Settles O26: widening a 25-bit literal to 32 bits keeps its value. -/
theorem loadiWritesZeroExtendedLiteral : Obligations.LoadiWritesZeroExtendedLiteral := by
  intro rl vl s
  refine ⟨_, exec_loadi rl (vl.setWidth 32) s, ?_, s.onlyRegister_setReg rl _⟩
  rw [State.get_setReg_self, BitVec.toNat_setWidth_of_le (by decide)]

end Sys2Proof.Machine
end

section
/-! PROOFS. The statement of 42_segments.md: a load reads the addressed word into its register, or is fatal (R112). -/

namespace Sys2Proof.Machine

/-! ### sload (R112) -/

theorem exec_sload_of_read {s : State} {rb rc : Reg} {w : Word} (h : s.mem.read (s.get rb) (s.get rc) = .ok w)
    (ra : Reg) : exec (.sload ra rb rc) s = .next (s.setReg ra w) := by
  simp only [exec, execSload, h]
  rfl

theorem exec_sload_of_read_error {s : State} {rb rc : Reg} {c : Cause}
    (h : s.mem.read (s.get rb) (s.get rc) = .error c) (ra : Reg) :
    exec (.sload ra rb rc) s = .next (s.raise c) := by
  simp only [exec, execSload, h]
  rfl

/-- Settles O29: at a valid address the load is a write of the word read to its register; at any other it is the fatal
entry. -/
theorem sloadReadsWordOrFatal : Obligations.SloadReadsWordOrFatal := by
  intro ra rb rc s
  rcases s.mem.read_cases (s.get rb) (s.get rc) with ⟨hv, hr⟩ | ⟨hv, hr⟩
  · refine ⟨fun _ => ⟨_, exec_sload_of_read hr ra, ?_, s.onlyRegister_setReg ra _⟩, fun hn => absurd hv hn⟩
    rw [State.get_setReg_self, hr]
  · exact ⟨fun h => absurd h hv, fun _ => ⟨_, exec_sload_of_read_error hr ra, s.stoppedBy_raise .invalidAccess⟩⟩

end Sys2Proof.Machine
end

section
/-! PROOFS. The statement of 43_io.md: `out` emits a byte, or is fatal (R120). -/

namespace Sys2Proof.Machine

/-! ### out (R120) -/

/-- `out` of a value that is no byte is the fatal entry; the value is not truncated. -/
theorem exec_out_of_ge {s : State} {rc : Reg} (h : 256 ≤ (s.get rc).toNat) :
    exec (.out rc) s = .next (s.raise .outputRange) := by
  have hlt : 255#32 < s.get rc := BitVec.lt_def.2 h
  simp only [exec, execOut, outputValue, if_pos hlt]
  rfl

/-- Settles O32: a value up to 255 is its own low byte, which is emitted; any other value is the fatal entry. -/
theorem outEmitsByteOrFatal : Obligations.OutEmitsByteOrFatal := by
  intro rc s
  constructor
  · intro hle
    have byte : (BitVec.ofNat 8 (s.get rc).toNat).toNat = (s.get rc).toNat := by
      rw [BitVec.toNat_ofNat, Nat.mod_eq_of_lt (Nat.lt_succ_of_le hle)]
    exact ⟨_, _, exec_out_of_le hle, s.outputByte_outlog _, byte, fun _ => rfl, rfl,
      ⟨rfl, rfl, fun _ => rfl, fun _ _ => rfl⟩, ⟨rfl, rfl, rfl⟩, rfl, rfl, rfl⟩
  · intro hge
    exact ⟨_, exec_out_of_ge hge, s.stoppedBy_raise .outputRange⟩

end Sys2Proof.Machine
end

section
/-! PROOFS. The statement of 44_control.md: `halt` writes the run state alone (R130). -/

namespace Sys2Proof.Machine

/-! ### halt (R130) -/

theorem exec_halt (s : State) : exec .halt s = .next (s.setRun .halted) := rfl

/-- A step that keeps the memory component keeps all that is observed of memory. -/
theorem MemorySame.of_mem_eq {s t : State} (h : t.mem = s.mem) : MemorySame s t := by
  simp only [MemorySame, h, implies_true, and_self]

/-- Settles O34: the state answered is the earlier one with its run state written, and that write has a frame of every other
component. -/
theorem haltStopsTheRun : Obligations.HaltStopsTheRun := by
  intro s
  have io : IoSame s (s.setRun .halted) :=
    ⟨s.setRun_input _, s.setRun_inpos _, s.setRun_eos _, s.setRun_outlog _⟩
  exact ⟨_, exec_halt s, s.setRun_run _, s.get_setRun _, s.setRun_ip _, .of_mem_eq (s.setRun_mem _),
    s.setRun_waiting _, s.setRun_limits _, io⟩

end Sys2Proof.Machine
end

section
/-! PROOFS. The statements of 30_encoding.md: decoding undoes encoding, and what a decoded word can say (R70 to R80). -/

namespace Sys2Proof

/-! ### The fields of an encoded word -/

@[simp] theorem fieldRA_wordR (op : BitVec 4) (ra : Reg) (b c : BitVec 3) : fieldRA (wordR op ra.bits b c) = ra := by
  rw [fieldRA, bitField_wordR_ra, Reg.ofBits_bits]

@[simp] theorem fieldRB_wordR (op : BitVec 4) (a : BitVec 3) (rb : Reg) (c : BitVec 3) :
    fieldRB (wordR op a rb.bits c) = rb := by
  rw [fieldRB, bitField_wordR_rb, Reg.ofBits_bits]

@[simp] theorem fieldRC_wordR (op : BitVec 4) (a b : BitVec 3) (rc : Reg) : fieldRC (wordR op a b rc.bits) = rc := by
  rw [fieldRC, bitField_wordR_rc, Reg.ofBits_bits]

theorem fieldRL_wordL (op : BitVec 4) (rl : Reg) {imm : Word} (h : imm ≤ maxLiteral) :
    fieldRL (wordL op rl.bits imm) = rl := by
  rw [fieldRL, bitField_wordL_rl op rl.bits h, Reg.ofBits_bits]

theorem fieldVL_wordL (op : BitVec 4) (rl : BitVec 3) {imm : Word} (h : imm ≤ maxLiteral) :
    (fieldVL (wordL op rl imm)).setWidth 32 = imm :=
  bitField_wordL_vl op rl h

theorem fieldOP_encode {i : Instr} (h : i.WellFormed) : fieldOP (encode i) = i.op.number := by
  cases i with
  | loadi rl imm => exact bitField_wordL_op _ _ (of_decide_eq_true h)
  | _ => exact bitField_wordR_op ..

/-- Each operand is read from the field the encoder put it in. -/
theorem decodeOperands_encode {i : Instr} (h : i.WellFormed) : decodeOperands i.op (encode i) = i := by
  cases i with
  | loadi rl imm =>
    have fits : imm ≤ maxLiteral := of_decide_eq_true h
    simp only [Instr.op, encode, decodeOperands, fieldRL_wordL _ _ fits, fieldVL_wordL _ _ fits]
  | _ => simp only [Instr.op, encode, decodeOperands, fieldRA_wordR, fieldRB_wordR, fieldRC_wordR]

/-! ### What the decoder answers -/

theorem decode_of_ofNumber {w : Word} {o : Op} (h : Op.ofNumber (fieldOP w) = some o) :
    decode w = .ok (decodeOperands o w) := by
  rw [decode, h]

theorem decode_of_ofNumber_none {w : Word} (h : Op.ofNumber (fieldOP w) = none) :
    decode w = .error (.invalidOpcode (fieldOP w)) := by
  rw [decode, h]

/-- Settles O7: the opcode field selects the instruction's own operation, whose operands are read back
from its fields. -/
theorem decodeOfEncode : Obligations.DecodeOfEncode := by
  intro i hwf
  have op : Op.ofNumber (fieldOP (encode i)) = some i.op := by rw [fieldOP_encode hwf, Op.ofNumber_number]
  rw [decode_of_ofNumber op, decodeOperands_encode hwf]

theorem decode_eq_ok {w : Word} {i : Instr} (h : decode w = .ok i) : ∃ o, decodeOperands o w = i := by
  cases ho : Op.ofNumber (fieldOP w) with
  | some o => exact ⟨o, Except.ok.inj ((decode_of_ofNumber ho).symm.trans h)⟩
  | none => simp [decode_of_ofNumber_none ho] at h

/-- A 25-bit field, zero-extended, is at most the largest literal. -/
theorem setWidth_le_maxLiteral (vl : BitVec 25) : vl.setWidth 32 ≤ maxLiteral := by
  have hlt := vl.isLt
  rw [BitVec.le_def, BitVec.toNat_setWidth_of_le (by decide)]
  simp only [maxLiteral, BitVec.reduceToNat]
  omega

theorem decodeOperands_wellFormed (o : Op) (w : Word) : (decodeOperands o w).WellFormed := by
  cases o with
  | loadi => exact decide_eq_true (setWidth_le_maxLiteral (fieldVL w))
  | _ => rfl

/-- Settles O8: whatever the operation, only a literal could fail, and the decoder's literals have 25 bits. -/
theorem decodedInstructionsAreWellFormed : Obligations.DecodedInstructionsAreWellFormed := by
  intro w i h
  obtain ⟨o, rfl⟩ := decode_eq_ok h
  exact decodeOperands_wellFormed o w

/-! ### The bits an operation uses (R77) -/

/-- The bits of a word that select the operation or carry one of its operands (R76). -/
def Op.usedBits : Op → Word
  | .cmov | .sload | .sstore | .add | .mul | .div | .nand => 0xF00001FF#32
  | .map | .loadp => 0xF000003F#32
  | .unmap | .out | .inp => 0xF0000007#32
  | .halt => 0xF0000000#32
  | .loadi => 0xFFFFFFFF#32

/-- Two words that agree under a mask agree in every field the mask covers. -/
theorem bitField_eq_of_and_eq {w w' m : Word} {l n : Nat} (h : w &&& m = w' &&& m)
    (covered : ∀ j < n, m.getLsbD (l + j) = true) : bitField w l n = bitField w' l n := by
  rw [bitField_eq, bitField_eq]
  ext j hj
  have bit : (w &&& m).getLsbD (l + j) = (w' &&& m).getLsbD (l + j) := by rw [h]
  simpa [covered j hj] using bit

/-- Agreement under a mask is agreement under every smaller mask. -/
theorem and_eq_of_submask {w w' m u : Word} (h : w &&& m = w' &&& m) (hu : m &&& u = u) : w &&& u = w' &&& u := by
  rw [← hu, ← BitVec.and_assoc, h, BitVec.and_assoc]

theorem decodeOperands_congr {w w' : Word} {o : Op} (h : w &&& o.usedBits = w' &&& o.usedBits) :
    decodeOperands o w = decodeOperands o w' := by
  cases o with
  | halt => rfl
  | unmap | out | inp =>
    simp only [decodeOperands, fieldRC, bitField_eq_of_and_eq h (l := 0) (n := 3) (by decide)]
  | map | loadp =>
    simp only [decodeOperands, fieldRB, fieldRC, bitField_eq_of_and_eq h (l := 3) (n := 3) (by decide),
      bitField_eq_of_and_eq h (l := 0) (n := 3) (by decide)]
  | cmov | sload | sstore | add | mul | div | nand =>
    simp only [decodeOperands, fieldRA, fieldRB, fieldRC, bitField_eq_of_and_eq h (l := 6) (n := 3) (by decide),
      bitField_eq_of_and_eq h (l := 3) (n := 3) (by decide), bitField_eq_of_and_eq h (l := 0) (n := 3) (by decide)]
  | loadi =>
    simp only [decodeOperands, fieldRL, fieldVL, bitField_eq_of_and_eq h (l := 25) (n := 3) (by decide),
      bitField_eq_of_and_eq h (l := 0) (n := 25) (by decide)]

/-- Two words that agree in the opcode field and in the bits used by the operation it names, if it names one, decode
alike. -/
theorem decode_congr {w w' m : Word} (h : w &&& m = w' &&& m) (hop : m &&& 0xF0000000#32 = 0xF0000000#32)
    (hused : ∀ o : Op, o.number.toNat = w.toNat / 2 ^ 28 → m &&& o.usedBits = o.usedBits) : decode w = decode w' := by
  have opcode : fieldOP w = fieldOP w' := bitField_eq_of_and_eq (and_eq_of_submask h hop) (by decide)
  cases ho : Op.ofNumber (fieldOP w) with
  | none => rw [decode_of_ofNumber_none ho, decode_of_ofNumber_none (opcode ▸ ho), opcode]
  | some o =>
    have number : o.number.toNat = w.toNat / 2 ^ 28 := by rw [Op.number_of_ofNumber ho, toNat_fieldOP]
    rw [decode_of_ofNumber ho, decode_of_ofNumber (opcode ▸ ho),
      decodeOperands_congr (and_eq_of_submask h (hused o number))]

/-! The bits each of the four masks of R77 leaves out are used by none of the operations it is for. -/

theorem Op.usedBits_of_ne {o : Op} (h : o.number.toNat ≠ 13) : 0xF00001FF#32 &&& o.usedBits = o.usedBits := by
  revert h; cases o <;> decide

theorem Op.usedBits_of_two_registers {o : Op} (h : o.number.toNat = 8 ∨ o.number.toNat = 12) :
    0xF000003F#32 &&& o.usedBits = o.usedBits := by
  revert h; cases o <;> decide

theorem Op.usedBits_of_one_register {o : Op} (h : 9 ≤ o.number.toNat ∧ o.number.toNat ≤ 11) :
    0xF0000007#32 &&& o.usedBits = o.usedBits := by
  revert h; cases o <;> decide

theorem Op.usedBits_of_halt {o : Op} (h : o.number.toNat = 7) : 0xF0000000#32 &&& o.usedBits = o.usedBits := by
  revert h; cases o <;> decide

/-- Settles O9: each mask covers the opcode field and every bit used by the operations its clause is about. -/
theorem unusedBitsAreIgnored : Obligations.UnusedBitsAreIgnored := by
  intro w w'
  refine ⟨fun h hn => ?_, fun h hn => ?_, fun h h9 h11 => ?_, fun h hn => ?_⟩
  · exact decode_congr h (by decide) fun _ e => Op.usedBits_of_ne (e ▸ hn)
  · exact decode_congr h (by decide) fun _ e => Op.usedBits_of_two_registers (e ▸ hn)
  · exact decode_congr h (by decide) fun _ e => Op.usedBits_of_one_register (e ▸ ⟨h9, h11⟩)
  · exact decode_congr h (by decide) fun _ e => Op.usedBits_of_halt (e ▸ hn)

/-- Settles O6: ten closed words, each decoded by evaluation. -/
theorem wordsDecodeAsListed : Obligations.WordsDecodeAsListed := by
  unfold Obligations.WordsDecodeAsListed
  decide

end Sys2Proof
end

section
/-! PROOFS. The statements of 10_state.md and 70_reset_and_hazards.md on the machine's invariant (R26, R32, R170): reset
establishes it, and the environment and every step keep it. -/

namespace Sys2Proof.Machine

/-! ### Reset -/

/-- Settles O2: no field of the state after reset but the parameters comes from the state before. -/
theorem resetStartsFreshRun : Obligations.ResetStartsFreshRun :=
  fun _ _ _ => ⟨rfl, rfl, rfl, rfl, rfl, rfl, rfl, fun _ h => by simp only [applyReset, h]⟩

/-- Settles O5: the memory of one segment of the boot image's words is canonical, and no byte has been consumed. -/
theorem everyResetEstablishesInvariant : Obligations.EveryResetEstablishesInvariant :=
  fun boot _ _ hl => ⟨Memory.ofWords_wf boot.fits, hl, hl.1, Nat.zero_le _, fun h => Bool.noConfusion h,
    fun h => absurd rfl h⟩

/-- Settles O4: the empty memory is canonical, and the default parameters are legal. -/
theorem resetStateHasInvariant : Obligations.ResetStateHasInvariant :=
  ⟨State.reset_mem_wf, by decide, by decide, Nat.zero_le _, fun h => Bool.noConfusion h, fun h => absurd rfl h⟩

/-! ### The environment -/

/-- After the stream has ended the environment presents no byte. -/
theorem State.presentByte_of_ended {s : State} (h : s.input.ended = true) (b : Byte) : s.presentByte b = s := by
  simp only [State.presentByte, h, if_true]

theorem State.presentByte_input {s : State} (h : s.input.ended = false) (b : Byte) :
    (s.presentByte b).input = { s.input with bytes := s.input.bytes ++ [b] } := by
  simp [State.presentByte, h]

theorem State.presentByte_inv {s : State} (hs : s.Inv) (b : Byte) : (s.presentByte b).Inv := by
  cases hn : s.input.ended with
  | true => rwa [State.presentByte_of_ended hn]
  | false =>
    obtain ⟨hmem, hlim, hlen, hpos, heos, hwait⟩ := hs
    refine ⟨hmem, hlim, hlen, ?_, fun h => ?_, hwait⟩
    · rw [State.presentByte_input hn, List.length_append]
      exact Nat.le_add_right_of_le hpos
    · have ended := (heos h).1
      rw [hn] at ended
      cases ended

theorem State.endInput_inv {s : State} (hs : s.Inv) : s.endInput.Inv := by
  obtain ⟨hmem, hlim, hlen, hpos, heos, hwait⟩ := hs
  exact ⟨hmem, hlim, hlen, hpos, fun h => ⟨rfl, (heos h).2⟩, hwait⟩

/-- Settles O38: a byte presented lengthens a stream that has not ended, and ending the stream consumes nothing. -/
theorem environmentKeepsInvariant : Obligations.EnvironmentKeepsInvariant :=
  fun _ b hs => ⟨State.presentByte_inv hs b, State.endInput_inv hs⟩

/-! ### The state operations and the invariant -/

theorem State.setReg_inv {s : State} (hs : s.Inv) (r : Reg) (v : Word) : (s.setReg r v).Inv := hs

theorem State.setIp_inv {s : State} (hs : s.Inv) (a : Word) : (s.setIp a).Inv := hs

theorem State.outputByte_inv {s : State} (hs : s.Inv) (b : Byte) : (s.outputByte b).Inv := hs

theorem State.setMem_inv {s : State} (hs : s.Inv) {m : Memory} (hm : m.Wf)
    (hlen : m.seg.length ≤ s.limits.maxSegments) : (s.setMem m).Inv := by
  obtain ⟨-, hlim, -, hpos, heos, hwait⟩ := hs
  exact ⟨hm, hlim, hlen, hpos, heos, hwait⟩

/-- The run may end while no `in` waits. -/
theorem State.setRun_inv {s : State} (hs : s.Inv) (hw : s.waiting = none) (r : Run) : (s.setRun r).Inv := by
  obtain ⟨hmem, hlim, hlen, hpos, heos, -⟩ := hs
  exact ⟨hmem, hlim, hlen, hpos, heos, fun h => absurd hw h⟩

theorem State.fatalAt_inv {s : State} (hs : s.Inv) (hw : s.waiting = none) (a : Word) (c : Cause) :
    (s.fatalAt a c).Inv :=
  State.setRun_inv hs hw (.fatal c)

theorem State.raise_inv {s : State} (hs : s.Inv) (hw : s.waiting = none) (c : Cause) : (s.raise c).Inv :=
  State.fatalAt_inv hs hw _ c

/-- The input cycle consumes a byte only where there is one, answers end of stream only at the end of an ended stream,
and waits only while the machine runs. -/
theorem State.takeInput_inv {s : State} (hs : s.Inv) (hr : s.run = .running) (r : Reg) : (s.takeInput r).Inv := by
  obtain ⟨hmem, hlim, hlen, hpos, heos, -⟩ := hs
  rcases s.inputByte_cases with ⟨b, he, hb, e⟩ | ⟨hend, e⟩ | ⟨-, -, -, e⟩
  · rw [State.takeInput_byte r e]
    have within : s.inpos < s.input.bytes.length := (List.getElem?_eq_some_iff.1 hb).1
    refine ⟨hmem, hlim, hlen, within, fun h => ?_, fun h => absurd rfl h⟩
    exact Bool.noConfusion (he.symm.trans h)
  · rw [State.takeInput_endOfStream r e]
    refine ⟨hmem, hlim, hlen, hpos, fun _ => ?_, fun h => absurd rfl h⟩
    rcases hend with h | ⟨hnone, hended⟩
    · exact heos h
    · exact ⟨hended, le_antisymm hpos (List.getElem?_eq_none_iff.1 hnone)⟩
  · rw [State.takeInput_notYet r e]
    exact ⟨hmem, hlim, hlen, hpos, heos, fun _ => hr⟩

/-! ### Every instruction and every step -/

theorem Memory.deallocate_ok {m m' : Memory} {i : Word} (h : m.deallocate i = .ok m') :
    i ≠ 0#32 ∧ m.Mapped i ∧ m' = { seg := m.seg.set i.toNat Segment.empty, free := i :: m.free } := by
  rcases m.deallocate_cases i with ⟨-, e⟩ | ⟨h0, hmap, e⟩ <;> rw [e] at h <;> cases h
  exact ⟨h0, hmap, rfl⟩

theorem Memory.length_deallocate {m m' : Memory} {i : Word} (h : m.deallocate i = .ok m') :
    m'.seg.length = m.seg.length := by
  obtain ⟨-, -, rfl⟩ := Memory.deallocate_ok h
  exact List.length_set

theorem Memory.loadProgram_ok {m m' : Memory} {l : Limits} {i : Word} (h : m.loadProgram l i = .ok m') :
    m.Mapped i ∧ Limits.exceededBy l m'.totalWords = false ∧ m' = m.setSegment 0#32 (m.segment i) := by
  rcases m.loadProgram_cases l i with ⟨-, e⟩ | ⟨-, -, e⟩ | ⟨hmap, hx, e⟩ <;> rw [e] at h <;> cases h
  exact ⟨hmap, hx, rfl⟩

theorem Memory.length_loadProgram {m m' : Memory} {l : Limits} {i : Word} (h : m.loadProgram l i = .ok m') :
    m'.seg.length = m.seg.length := by
  obtain ⟨-, -, rfl⟩ := Memory.loadProgram_ok h
  exact Memory.setSegment_length m _ _

/-- An instruction that begins while the machine runs and no `in` waits keeps the invariant. -/
theorem Effect.inv {i : Instr} {s t : State} (h : Effect i s t) (hs : s.Inv) (hr : s.run = .running)
    (hw : s.waiting = none) : t.Inv := by
  obtain ⟨hmem, hlim, hlen, -⟩ := id hs
  cases h with
  | unmoved => exact hs
  | raised c => exact State.raise_inv hs hw c
  | register r v => exact State.setReg_inv hs r v
  | halted => exact State.setRun_inv hs hw .halted
  | input rc => exact State.takeInput_inv hs hr rc
  | output => exact State.outputByte_inv hs _
  | stored ra rb rc m _ hm =>
    exact State.setMem_inv hs (Memory.write_wf hmem hm) ((Memory.length_write hm).trans_le hlen)
  | unmapped rc m _ hm =>
    exact State.setMem_inv hs (Memory.deallocate_wf hmem hm) ((Memory.length_deallocate hm).trans_le hlen)
  | mapped rb rc k m _ hm =>
    exact State.setReg_inv (State.setMem_inv hs (Memory.allocate_wf hmem hlim hm) (Memory.allocate_length hm hlen)) rb k
  | jumped => exact State.setIp_inv hs _
  | loaded rb rc m _ _ hm =>
    have loaded := State.setMem_inv hs (Memory.loadProgram_wf hmem hm) ((Memory.length_loadProgram hm).trans_le hlen)
    exact State.setIp_inv loaded _

/-- Settles O37: a cycle begins only while the machine runs and no `in` waits, and each state it can leave has the
invariant. -/
theorem everyStepKeepsInvariant : Obligations.EveryStepKeepsInvariant := by
  intro s t hs hstep
  cases step_effect hstep with
  | terminal => exact hs
  | resumed r hr => exact State.takeInput_inv hs hr r
  | fetchFault _ hw => exact State.fatalAt_inv hs hw _ _
  | badOpcode w hf =>
    obtain ⟨-, hw, -⟩ := hf
    exact State.raise_inv (State.setIp_inv hs _) hw _
  | executed w i _ hf _ he =>
    obtain ⟨hr, hw, -⟩ := hf
    exact (exec_effect he).inv (State.setIp_inv hs _) hr hw

end Sys2Proof.Machine
end

section
/-! PROOFS. The statements of 40_cycle.md and 60_exceptions.md: what one step does, and which step stops the machine
(R27, R90 to R97, R140 to R152). -/

namespace Sys2Proof.Machine

/-! ### The step, by the state it begins in -/

theorem dispatchWord_of_decode {w : Word} {i : Instr} (h : decode w = .ok i) (s : State) :
    dispatchWord w s = exec i s := by
  rw [dispatchWord, h]

theorem step_of_decode {s : State} {w : Word} {i : Instr} (hf : Fetches s w) (h : decode w = .ok i) :
    step s = exec i s.advance := by
  rw [step_of_fetches hf, dispatchWord_of_decode h]

theorem step_of_not_valid {s : State} (hr : s.run = .running) (hw : s.waiting = none) (h : ¬ s.mem.Valid 0#32 s.ip) :
    step s = .next (s.fatalAt s.ip .fetchOutOfRange) := by
  have hfetch : s.fetch = .error .fetchOutOfRange := by rw [State.fetch, Memory.read_of_not_valid h]
  simp only [step, hr, runningStep, hw, newCycle, hfetch]

theorem step_of_waiting {s : State} {r : Reg} (hr : s.run = .running) (hw : s.waiting = some r) :
    step s = .next (s.takeInput r) := by
  simp only [step, hr, runningStep, hw]

theorem exec_inp (rc : Reg) (s : State) : exec (.inp rc) s = .next (s.takeInput rc) := rfl

/-- Settles O11: advancing is the write of `ip`. -/
theorem stepRunsDecodedInstruction : Obligations.StepRunsDecodedInstruction := fun _ _ _ hf h => step_of_decode hf h

/-- Settles O12: the fatal entry of a failed fetch writes the run state and the fault record alone. -/
theorem fetchOutsideSegmentZeroIsFatal : Obligations.FetchOutsideSegmentZeroIsFatal :=
  fun s hr hw h => ⟨_, step_of_not_valid hr hw h, rfl, rfl, rfl, s.get_fatalAt _ _, .of_mem_eq rfl, hw, rfl,
    ⟨rfl, rfl, rfl, rfl⟩⟩

/-- Settles O3: segment 0 has length 0, so offset 0 is outside it. -/
theorem emptyBootImageFaultsAtFirstFetch : Obligations.EmptyBootImageFaultsAtFirstFetch := by
  intro boot input s hnil
  have outside : ¬ (applyReset boot input s).mem.Valid 0#32 0#32 := by
    simp only [applyReset, hnil]
    decide
  exact ⟨_, step_of_not_valid rfl rfl outside, rfl, rfl, rfl⟩

/-- Settles O13: only a running machine has a cycle to run. -/
theorem terminalStatesAreFinal : Obligations.TerminalStatesAreFinal := by
  intro s h
  cases hr : s.run with
  | running => exact absurd hr h
  | halted | fatal => simp only [step, hr]

/-- Settles O50: both are the input cycle for the waiting destination. -/
theorem waitingStepRunsTheInAgain : Obligations.WaitingStepRunsTheInAgain :=
  fun _ r hr hw => (step_of_waiting hr hw).trans (exec_inp r _).symm

/-! ### Every step answers a next state -/

theorem State.finish_next (s : State) (r : Except Cause State) : ∃ t, s.finish r = .next t := by
  rcases s.finish_cases r with ⟨t, -, e⟩ | ⟨c, -, e⟩
  · exact ⟨t, e⟩
  · exact ⟨_, e⟩

/-- An instruction either answers a state outright or ends in `finish`. -/
theorem exec_next (i : Instr) (s : State) : ∃ t, exec i s = .next t := by
  cases i with
  | cmov | add | mul | nand | halt | inp | loadi => exact ⟨_, rfl⟩
  | sload | sstore | div | map | unmap | out | loadp => exact s.finish_next _

/-- Settles O14: a machine that does not run keeps its state, and a running one resumes its `in`, stops at the fetch or
the decoder, or runs an instruction. -/
theorem everyStepAnswersNext : Obligations.EveryStepAnswersNext := by
  intro s
  by_cases hr : s.run = .running
  · cases hw : s.waiting with
    | some r => exact ⟨_, step_of_waiting hr hw⟩
    | none =>
      rcases s.fetch_cases with ⟨w, hread, -⟩ | ⟨hv, -⟩
      · rw [step_of_fetches ⟨hr, hw, hread⟩]
        cases hd : decode w with
        | ok i => rw [dispatchWord_of_decode hd]; exact exec_next i _
        | error e => exact ⟨_, dispatchWord_of_decode_error hd _⟩
      · exact ⟨_, step_of_not_valid hr hw hv⟩
  · exact ⟨s, terminalStatesAreFinal s hr⟩

/-! ### The fatal entry of an instruction -/

@[simp] theorem State.takeInput_run (s : State) (r : Reg) : (s.takeInput r).run = s.run := by
  obtain ⟨hrun, -⟩ := s.takeInput_frame r
  exact hrun

@[simp] theorem State.takeInput_mem (s : State) (r : Reg) : (s.takeInput r).mem = s.mem := by
  obtain ⟨-, hmem, -⟩ := s.takeInput_frame r
  exact hmem

@[simp] theorem State.takeInput_ip (s : State) (r : Reg) : (s.takeInput r).ip = s.ip := by
  obtain ⟨-, -, hip, -⟩ := s.takeInput_frame r
  exact hip

@[simp] theorem State.takeInput_limits (s : State) (r : Reg) : (s.takeInput r).limits = s.limits := by
  obtain ⟨-, -, -, hlimits, -⟩ := s.takeInput_frame r
  exact hlimits

@[simp] theorem State.takeInput_input (s : State) (r : Reg) : (s.takeInput r).input = s.input := by
  obtain ⟨-, -, -, -, -, hinput, -⟩ := s.takeInput_frame r
  exact hinput

@[simp] theorem State.takeInput_faultIp (s : State) (r : Reg) : (s.takeInput r).faultIp = s.faultIp := by
  obtain ⟨-, -, -, -, -, -, hfault, -⟩ := s.takeInput_frame r
  exact hfault

theorem State.get_takeInput_other (s : State) {r q : Reg} (h : q ≠ r) : (s.takeInput r).get q = s.get q := by
  obtain ⟨-, -, -, -, -, -, -, hregs⟩ := s.takeInput_frame r
  exact hregs q h

/-- An instruction that leaves a running machine fatal raised the condition, and left the fatal entry. -/
theorem Effect.of_fatal {i : Instr} {s t : State} {c : Cause} (h : Effect i s t) (hr : s.run = .running)
    (hc : t.run = .fatal c) : Raises s i c ∧ t = s.raise c := by
  cases h with
  | raised c' hraises =>
    obtain rfl : c' = c := Run.fatal.inj hc
    exact ⟨hraises, rfl⟩
  | halted => cases hc
  | input rc =>
    rw [State.takeInput_run, hr] at hc
    cases hc
  | unmoved | register | output | stored | unmapped | mapped | jumped | loaded => cases hr.symm.trans hc

/-- An instruction that raises nothing leaves the fault record alone. -/
theorem Effect.faultIp_of_not_fatal {i : Instr} {s t : State} (h : Effect i s t) (hn : ∀ c, t.run ≠ .fatal c) :
    t.faultIp = s.faultIp := by
  cases h with
  | raised c => exact absurd rfl (hn c)
  | input rc => exact s.takeInput_faultIp rc
  | unmoved | register | halted | output | stored | unmapped | mapped | jumped | loaded => rfl

/-- Only `halt` halts. -/
theorem Effect.of_halted {i : Instr} {s t : State} (h : Effect i s t) (hr : s.run = .running)
    (hh : t.run = .halted) : i = .halt := by
  cases h with
  | halted hi => exact hi
  | raised => cases hh
  | input rc =>
    rw [State.takeInput_run, hr] at hh
    cases hh
  | unmoved | register | output | stored | unmapped | mapped | jumped | loaded => cases hr.symm.trans hh

theorem Raises.ne_fetchOutOfRange {s : State} {i : Instr} {c : Cause} (h : Raises s i c) : c ≠ .fetchOutOfRange := by
  cases h <;> exact Cause.noConfusion

/-- Settles O16: a fatal state is the fatal entry, whose record is one below `ip`. -/
theorem faultRecordIsWrittenOnlyByFatal : Obligations.FaultRecordIsWrittenOnlyByFatal := by
  intro i s t hr he
  refine ⟨fun ⟨c, hc⟩ => ?_, fun hn => (exec_effect he).faultIp_of_not_fatal hn⟩
  obtain ⟨-, rfl⟩ := (exec_effect he).of_fatal hr hc
  exact ⟨rfl, rfl⟩

/-- Settles O18: the table of R143 is `Raises`, read off case by case. -/
theorem onlyListedInstructionsRaise : Obligations.OnlyListedInstructionsRaise := by
  intro i s t c hr he hc
  obtain ⟨hraises, -⟩ := (exec_effect he).of_fatal hr hc
  cases hraises with
  | div ra rb rc => exact .inl ⟨rfl, ra, rb, rc, rfl⟩
  | out rc => exact .inr (.inl ⟨rfl, rc, rfl⟩)
  | sload ra rb rc => exact .inr (.inr (.inl ⟨rfl, .inl ⟨ra, rb, rc, rfl⟩⟩))
  | sstore ra rb rc => exact .inr (.inr (.inl ⟨rfl, .inr (.inl ⟨ra, rb, rc, rfl⟩)⟩))
  | loadp rb rc => exact .inr (.inr (.inl ⟨rfl, .inr (.inr ⟨rb, rc, rfl⟩)⟩))
  | unmap rc => exact .inr (.inr (.inr (.inl ⟨rfl, rc, rfl⟩)))
  | map rb rc => exact .inr (.inr (.inr (.inr ⟨rfl, .inl ⟨rb, rc, rfl⟩⟩)))
  | loadpFull rb rc => exact .inr (.inr (.inr (.inr ⟨rfl, .inr ⟨rb, rc, rfl⟩⟩)))

/-- Settles O17: of the states a step of a running machine can leave, only the executed `halt` is Halted. -/
theorem haltedOnlyByHalt : Obligations.HaltedOnlyByHalt := by
  intro s t hr hstep
  constructor
  · intro hh
    cases step_effect hstep with
    | terminal h => exact absurd hr h
    | resumed r =>
      rw [State.takeInput_run, hr] at hh
      cases hh
    | fetchFault | badOpcode => cases hh
    | executed w i _ hf hd he =>
      obtain rfl : i = .halt := (exec_effect he).of_halted hr hh
      exact ⟨w, hf, hd⟩
  · rintro ⟨w, hf, hd⟩
    rw [step_of_decode hf hd, exec_halt] at hstep
    cases hstep
    rfl

/-- A fatal entry in dispatch, seen from before the cycle: the record is the old `ip`, at which the word still stands. -/
theorem Fetches.raise_precise {s : State} {w : Word} (hf : Fetches s w) (c : Cause) :
    (s.advance.raise c).faultIp = s.ip ∧ (s.advance.raise c).ip = s.ip + 1#32 ∧
      (s.advance.raise c).mem.read 0#32 (s.advance.raise c).faultIp = .ok w := by
  have record : (s.advance.raise c).faultIp = s.ip := by
    rw [State.raise_faultIp, State.advance_ip, BitVec.add_sub_cancel]
  obtain ⟨-, -, hread⟩ := hf
  exact ⟨record, rfl, record ▸ hread⟩

/-- A step that leaves a running machine fatal is the failed fetch, or a fatal entry in dispatch. -/
theorem StepEffect.of_fatal {s t : State} {c : Cause} (h : StepEffect s t) (hr : s.run = .running)
    (hc : t.run = .fatal c) :
    (c = .fetchOutOfRange ∧ t = s.fatalAt s.ip c) ∨
      (c ≠ .fetchOutOfRange ∧ t = s.advance.raise c ∧ ∃ w, Fetches s w) := by
  cases h with
  | terminal h => exact absurd hr h
  | resumed r =>
    rw [State.takeInput_run, hr] at hc
    cases hc
  | fetchFault => cases hc; exact .inl ⟨rfl, rfl⟩
  | badOpcode w hf => cases hc; exact .inr ⟨Cause.noConfusion, rfl, w, hf⟩
  | executed w i _ hf _ he =>
    obtain ⟨hraises, ht⟩ := (exec_effect he).of_fatal hr hc
    exact .inr ⟨hraises.ne_fetchOutOfRange, ht, w, hf⟩

/-- Settles O15: both fatal entries keep the frame; the one in dispatch has the advanced `ip`, one above the record. -/
theorem fatalStepsArePrecise : Obligations.FatalStepsArePrecise := by
  intro s t c hr hstep hc
  rcases (step_effect hstep).of_fatal hr hc with ⟨hfetch, rfl⟩ | ⟨hne, rfl, w, hf⟩
  · exact ⟨fun _ => rfl, .of_mem_eq rfl, ⟨rfl, rfl, rfl, rfl⟩, rfl, rfl, fun _ => rfl, fun h => absurd hfetch h⟩
  · obtain ⟨hrecord, hip, hread⟩ := Fetches.raise_precise hf c
    exact ⟨fun _ => rfl, .of_mem_eq rfl, ⟨rfl, rfl, rfl, rfl⟩, rfl, hrecord, fun h => absurd h hne,
      fun _ => ⟨hip, w, hread⟩⟩

/-! ### The input cycle, by what the environment answers (R121, R152) -/

theorem State.inputByte_of_byte {s : State} {b : Byte} (he : s.eos = false) (hb : s.input.bytes[s.inpos]? = some b) :
    s.inputByte = .byte b := by
  simp [State.inputByte, he, hb]

theorem State.inputByte_of_ended {s : State}
    (h : s.eos = true ∨ (s.input.bytes.length ≤ s.inpos ∧ s.input.ended = true)) : s.inputByte = .endOfStream := by
  rcases h with he | ⟨hpos, hended⟩
  · simp [State.inputByte, he]
  · simp [State.inputByte, List.getElem?_eq_none hpos, hended]

theorem State.inputByte_of_notYet {s : State} (he : s.eos = false) (hpos : s.input.bytes.length ≤ s.inpos)
    (hn : s.input.ended = false) : s.inputByte = .notYet := by
  simp [State.inputByte, he, List.getElem?_eq_none hpos, hn]

theorem State.takeInput_of_byte {s : State} {r : Reg} {b : Byte} (h : s.inputByte = .byte b) :
    ((s.takeInput r).get r).toNat = b.toNat ∧ (s.takeInput r).inpos = s.inpos + 1 ∧ (s.takeInput r).eos = s.eos ∧
      (s.takeInput r).waiting = none := by
  rw [State.takeInput_byte r h]
  refine ⟨?_, rfl, rfl, rfl⟩
  show ((s.setReg r (b.setWidth 32)).get r).toNat = b.toNat
  rw [State.get_setReg_self, BitVec.toNat_setWidth_of_le (by decide)]

theorem State.takeInput_of_endOfStream {s : State} {r : Reg} (h : s.inputByte = .endOfStream) :
    (s.takeInput r).get r = Word.allOnes ∧ (s.takeInput r).inpos = s.inpos ∧ (s.takeInput r).eos = true ∧
      (s.takeInput r).waiting = none := by
  rw [State.takeInput_endOfStream r h]
  exact ⟨s.get_setReg_self r _, rfl, rfl, rfl⟩

theorem State.otherRegsSame_takeInput (s : State) (r : Reg) : OtherRegsSame r s (s.takeInput r) :=
  fun _ => s.get_takeInput_other

/-- Settles O33: the answer of the environment decides between a completed input cycle and the wait. -/
theorem inReadsByteOrSentinelOrWaits : Obligations.InReadsByteOrSentinelOrWaits := by
  intro rc s
  refine ⟨fun b he hb => ⟨_, exec_inp rc s, ?_⟩, fun hend => ⟨_, exec_inp rc s, ?_⟩,
    fun he hpos hn => ⟨_, exec_inp rc s, ?_⟩⟩
  · obtain ⟨hget, hinpos, heos, hwait⟩ := State.takeInput_of_byte (r := rc) (State.inputByte_of_byte he hb)
    exact ⟨hget, hinpos, heos.trans he, hwait, s.otherRegsSame_takeInput rc, s.takeInput_ip rc,
      .of_mem_eq (s.takeInput_mem rc), s.takeInput_run rc, s.takeInput_limits rc, s.takeInput_input rc,
      s.takeInput_outlog rc⟩
  · obtain ⟨hget, hinpos, heos, hwait⟩ := State.takeInput_of_endOfStream (r := rc) (State.inputByte_of_ended hend)
    exact ⟨hget, hinpos, heos, hwait, s.otherRegsSame_takeInput rc, s.takeInput_ip rc,
      .of_mem_eq (s.takeInput_mem rc), s.takeInput_run rc, s.takeInput_limits rc, s.takeInput_input rc,
      s.takeInput_outlog rc⟩
  · rw [State.takeInput_notYet rc (State.inputByte_of_notYet he hpos hn)]
    exact ⟨rfl, fun _ => rfl, rfl, .of_mem_eq rfl, rfl, rfl, ⟨rfl, rfl, rfl, rfl⟩⟩

/-- Settles O19: the unanswered input cycle writes the wait that already stands. -/
theorem waitHoldsEverything : Obligations.WaitHoldsEverything := by
  intro s r hr hw he hpos hn
  rw [step_of_waiting hr hw, State.takeInput_notYet r (State.inputByte_of_notYet he hpos hn), ← hw]

/-- Settles O20: what the environment adds is what the waiting input cycle is answered. -/
theorem answerEndsWait : Obligations.AnswerEndsWait := by
  intro s r hr hw he hpos hn
  refine ⟨fun b => ⟨_, step_of_waiting (s := s.presentByte b) hr hw, ?_⟩,
    ⟨_, step_of_waiting (s := s.endInput) hr hw, ?_⟩⟩
  · have answer : (s.presentByte b).inputByte = .byte b :=
      State.inputByte_of_byte he (by simp [State.presentByte_input hn, hpos])
    obtain ⟨hget, hinpos, heos, hwait⟩ := State.takeInput_of_byte (r := r) answer
    exact ⟨hwait, hget, hinpos, heos.trans he, State.takeInput_input _ r, State.otherRegsSame_takeInput _ r,
      State.takeInput_ip _ r, .of_mem_eq (State.takeInput_mem _ r), (State.takeInput_run _ r).trans hr,
      State.takeInput_faultIp _ r, State.takeInput_limits _ r, State.takeInput_outlog _ r⟩
  · have answer : s.endInput.inputByte = .endOfStream := State.inputByte_of_ended (.inr ⟨hpos.ge, rfl⟩)
    obtain ⟨hget, hinpos, heos, hwait⟩ := State.takeInput_of_endOfStream (r := r) answer
    exact ⟨hwait, hget, hinpos, heos, State.takeInput_input _ r, State.otherRegsSame_takeInput _ r,
      State.takeInput_ip _ r, .of_mem_eq (State.takeInput_mem _ r), (State.takeInput_run _ r).trans hr,
      State.takeInput_faultIp _ r, State.takeInput_limits _ r, State.takeInput_outlog _ r⟩

end Sys2Proof.Machine
end

section
/-! PROOFS. The statements of 00_scope.md and 10_state.md about every instruction or every step: what is written, what
memory keeps, and how the input is consumed (R9, R11, R21 to R26, R40, R49, R97, R132). -/

namespace Sys2Proof.Machine

/-! ### ip, registers and memory -/

/-- Settles O36: of the states an instruction can leave, only the two of `loadp` have another `ip`. -/
theorem onlyLoadpWritesIp : Obligations.OnlyLoadpWritesIp := by
  intro i s t he hne
  cases exec_effect he with
  | jumped rb rc hi | loaded rb rc _ hi => exact absurd hi (hne rb rc)
  | input rc => exact s.takeInput_ip rc
  | raised | unmoved | register | halted | output | stored | unmapped | mapped => rfl

/-- Settles O39: an instruction that writes a register writes its destination. -/
theorem atMostTheDestinationIsWritten : Obligations.AtMostTheDestinationIsWritten := by
  intro i s t r he hd
  have other : ∀ {d : Reg}, destination i = some d → r ≠ d := fun hi e => hd (e ▸ hi)
  cases exec_effect he with
  | register d v hi => exact s.get_setReg_other v (other hi)
  | input rc hi => exact s.get_takeInput_other (other (hi ▸ rfl))
  | mapped rb rc k m hi => exact (s.setMem m).get_setReg_other k (other (hi ▸ rfl))
  | raised | unmoved | halted | output | stored | unmapped | jumped | loaded => rfl

/-- Settles O40: of the states an instruction can leave, only those of the four have another memory. -/
theorem onlyFourInstructionsTouchMemory : Obligations.OnlyFourInstructionsTouchMemory := by
  intro i s t he hstore hmap hunmap hload
  cases exec_effect he with
  | stored ra rb rc _ hi => exact absurd hi (hstore ra rb rc)
  | mapped rb rc _ _ hi => exact absurd hi (hmap rb rc)
  | unmapped rc _ hi => exact absurd hi (hunmap rc)
  | jumped rb rc hi | loaded rb rc _ hi => exact absurd hi (hload rb rc)
  | input rc => exact s.takeInput_mem rc
  | raised | unmoved | register | halted | output => rfl

/-! ### The segment table (R23, R24, R26) -/

/-- An allocation that succeeds makes the most recently freed id, or a new entry, a segment of `n` zero words. -/
theorem Memory.allocate_ok {m m' : Memory} {l : Limits} {n k : Word} (h : m.allocate l n = .ok (k, m')) :
    m.exhausted l n = false ∧
      ((∃ rest, m.free = k :: rest ∧ m' = { seg := m.seg.set k.toNat (Segment.zeros n), free := rest }) ∨
        (m.free = [] ∧ k = BitVec.ofNat 32 m.seg.length ∧ m' = { seg := m.seg ++ [Segment.zeros n], free := [] })) := by
  rcases m.allocate_cases l n with ⟨-, e⟩ | ⟨hx, i, rest, hf, e⟩ | ⟨hx, hf, e⟩ <;> rw [e] at h <;> cases h
  · exact ⟨hx, .inl ⟨rest, hf, rfl⟩⟩
  · exact ⟨hx, .inr ⟨hf, rfl, rfl⟩⟩

theorem Memory.le_length_allocate {m m' : Memory} {l : Limits} {n k : Word} (h : m.allocate l n = .ok (k, m')) :
    m.seg.length ≤ m'.seg.length := by
  rcases Memory.allocate_ok h with ⟨-, ⟨rest, -, rfl⟩ | ⟨-, -, rfl⟩⟩
  · exact List.length_set.ge
  · simp

/-- No instruction shrinks the table or changes the parameters. -/
theorem Effect.table_le {i : Instr} {s t : State} (h : Effect i s t) :
    s.mem.seg.length ≤ t.mem.seg.length ∧ t.limits = s.limits := by
  cases h with
  | stored _ _ _ _ _ hm => exact ⟨(Memory.length_write hm).ge, rfl⟩
  | unmapped _ _ _ hm => exact ⟨(Memory.length_deallocate hm).ge, rfl⟩
  | mapped _ _ _ _ _ hm => exact ⟨Memory.le_length_allocate hm, rfl⟩
  | loaded _ _ _ _ _ hm => exact ⟨(Memory.length_loadProgram hm).ge, rfl⟩
  | input rc => exact ⟨by rw [State.takeInput_mem], s.takeInput_limits rc⟩
  | raised | unmoved | register | halted | output | jumped => exact ⟨le_rfl, rfl⟩

/-- Settles O41: outside an executed instruction a step keeps memory and the parameters. -/
theorem tableNeverShrinks : Obligations.TableNeverShrinks := by
  intro s t hstep
  cases step_effect hstep with
  | executed w i _ _ _ he => exact (exec_effect he).table_le
  | resumed r => exact ⟨by rw [State.takeInput_mem], s.takeInput_limits r⟩
  | terminal | fetchFault | badOpcode => exact ⟨le_rfl, rfl⟩

theorem Memory.len_congr {m m' : Memory} {j : Word} (h : m'.segment j = m.segment j) : m'.len j = m.len j :=
  congrArg Segment.len h

/-- An allocation leaves a mapped id mapped, and its segment alone: the id it takes was free or beyond the table. -/
theorem Memory.mapped_allocate {m m' : Memory} {l : Limits} {n k j : Word} (h : m.allocate l n = .ok (k, m'))
    (hj : m.Mapped j) : m'.Mapped j ∧ m'.segment j = m.segment j := by
  obtain ⟨hlt, hfree⟩ := hj
  rcases Memory.allocate_ok h with ⟨-, ⟨rest, hf, rfl⟩ | ⟨hf, -, rfl⟩⟩
  · obtain ⟨hne, hrest⟩ : j ≠ k ∧ j ∉ rest := by simpa [hf] using hfree
    exact ⟨⟨by simpa using hlt, hrest⟩, m.segment_setSegment_other (Segment.zeros n) hne⟩
  · refine ⟨⟨by rw [List.length_append]; omega, List.not_mem_nil⟩, ?_⟩
    simp only [Memory.segment, List.getD_eq_getElem?_getD, List.getElem?_append_left hlt]

theorem Memory.segment_deallocate {m m' : Memory} {i j : Word} (h : m.deallocate i = .ok m') (hne : j ≠ i) :
    m'.segment j = m.segment j := by
  obtain ⟨-, -, rfl⟩ := Memory.deallocate_ok h
  exact m.segment_setSegment_other Segment.empty hne

theorem Memory.mapped_deallocate {m m' : Memory} {i j : Word} (h : m.deallocate i = .ok m') (hne : j ≠ i) :
    m'.Mapped j ↔ m.Mapped j := by
  obtain ⟨-, -, rfl⟩ := Memory.deallocate_ok h
  simp [Memory.Mapped, hne]

/-- Settles O42: a store and a `loadp` replace a segment in place, an allocation takes an id that is not mapped, and an
`unmap` releases only the id it names. -/
theorem mappedUntilUnmapped : Obligations.MappedUntilUnmapped := by
  intro i s t j he hj hun
  cases exec_effect he with
  | stored _ _ _ _ _ hm => exact ⟨(Memory.mapped_write hm j).2 hj, fun _ => Memory.len_write hm j⟩
  | mapped _ _ _ _ _ hm =>
    obtain ⟨hmap, hseg⟩ := Memory.mapped_allocate hm hj
    exact ⟨hmap, fun _ => Memory.len_congr hseg⟩
  | unmapped rc _ hi hm =>
    have hne : j ≠ s.get rc := (hun rc hi).symm
    exact ⟨(Memory.mapped_deallocate hm hne).2 hj, fun _ => Memory.len_congr (Memory.segment_deallocate hm hne)⟩
  | loaded rb _ _ _ _ hm =>
    obtain ⟨-, -, rfl⟩ := Memory.loadProgram_ok hm
    exact ⟨(Memory.mapped_setSegment _ _ j _).2 hj,
      fun h0 => Memory.len_congr (Memory.segment_setSegment_other s.mem _ h0)⟩
  | input rc =>
    rw [State.takeInput_mem]
    exact ⟨hj, fun _ => rfl⟩
  | raised | unmoved | register | halted | output | jumped => exact ⟨hj, fun _ => rfl⟩

/-! ### The capacity (R49) -/

theorem Limits.exceededBy_eq_false {l : Limits} {n : Nat} :
    Limits.exceededBy l n = false ↔ ∀ c, l.memCapacity = some c → n ≤ c := by
  unfold Limits.exceededBy
  cases l.memCapacity <;> simp

/-- Replacing a segment adds at most the length of the new one to the words held. -/
theorem Memory.totalWords_setSegment_le (m : Memory) (i : Word) (g : Segment) :
    (m.setSegment i g).totalWords ≤ m.totalWords + g.len.toNat := by
  by_cases h : i.toNat < m.seg.length
  · have := m.totalWords_setSegment i g h
    omega
  · have same : m.setSegment i g = m := by rw [Memory.setSegment, List.set_eq_of_length_le (Nat.le_of_not_lt h)]
    rw [same]
    exact Nat.le_add_right _ _

theorem Memory.totalWords_write {m m' : Memory} {i o v : Word} (h : m.write i o v = .ok m') :
    m'.totalWords = m.totalWords := by
  obtain ⟨⟨⟨hi, -⟩, -⟩, rfl⟩ := Memory.write_ok h
  have total := m.totalWords_setSegment i ((m.segment i).setWord o v) hi
  have same : ((m.segment i).setWord o v).len = m.len i := rfl
  rw [same] at total
  exact Nat.add_right_cancel total

theorem Memory.totalWords_deallocate_le {m m' : Memory} {i : Word} (h : m.deallocate i = .ok m') :
    m'.totalWords ≤ m.totalWords := by
  obtain ⟨-, -, rfl⟩ := Memory.deallocate_ok h
  exact m.totalWords_setSegment_le i Segment.empty

theorem Memory.totalWords_allocate_le {m m' : Memory} {l : Limits} {n k : Word} (h : m.allocate l n = .ok (k, m')) :
    m'.totalWords ≤ m.totalWords + n.toNat := by
  rcases Memory.allocate_ok h with ⟨-, ⟨rest, -, rfl⟩ | ⟨-, -, rfl⟩⟩
  · exact m.totalWords_setSegment_le k (Segment.zeros n)
  · simp [Memory.totalWords]

/-- An allocation that succeeds has room for its words within the capacity. -/
theorem Memory.capacity_of_allocate {m m' : Memory} {l : Limits} {n k : Word} (h : m.allocate l n = .ok (k, m'))
    {c : Nat} (hc : l.memCapacity = some c) : m.totalWords + n.toNat ≤ c := by
  obtain ⟨hroom, -⟩ := Memory.allocate_ok h
  obtain ⟨-, hx⟩ := Bool.or_eq_false_iff.1 hroom
  exact Limits.exceededBy_eq_false.1 hx c hc

theorem Effect.totalWords_le {i : Instr} {s t : State} {c : Nat} (h : Effect i s t)
    (hc : s.limits.memCapacity = some c) (hle : s.mem.totalWords ≤ c) : t.mem.totalWords ≤ c := by
  cases h with
  | stored _ _ _ _ _ hm => exact (Memory.totalWords_write hm).trans_le hle
  | unmapped _ _ _ hm => exact (Memory.totalWords_deallocate_le hm).trans hle
  | mapped _ _ _ _ _ hm => exact (Memory.totalWords_allocate_le hm).trans (Memory.capacity_of_allocate hm hc)
  | loaded _ _ _ _ _ hm =>
    obtain ⟨-, hx, -⟩ := Memory.loadProgram_ok hm
    exact Limits.exceededBy_eq_false.1 hx c hc
  | input rc => rwa [State.takeInput_mem]
  | raised | unmoved | register | halted | output | jumped => exact hle

/-- Settles O43: the two operations that add words compare the new total with the capacity. -/
theorem capacityIsKept : Obligations.CapacityIsKept := by
  intro s t c hc hle hstep
  cases step_effect hstep with
  | executed w i _ _ _ he => exact (exec_effect he).totalWords_le hc hle
  | resumed r => rwa [State.takeInput_mem]
  | terminal | fetchFault | badOpcode => exact hle

/-! ### IN (R9, R97) -/

/-- From `s` to `t` the end of stream stays answered, and at most the next byte is consumed (R9). -/
def ConsumesInOrder (s t : State) : Prop :=
  t.input = s.input ∧ (s.eos = true → t.eos = true) ∧
    (t.inpos = s.inpos ∨
      (t.inpos = s.inpos + 1 ∧ ∃ b r, s.input.bytes[s.inpos]? = some b ∧ (t.get r).toNat = b.toNat))

theorem ConsumesInOrder.of_ioSame {s t : State} (h : IoSame s t) : ConsumesInOrder s t := by
  obtain ⟨hinput, hinpos, heos, -⟩ := h
  exact ⟨hinput, fun he => heos.trans he, .inl hinpos⟩

theorem State.consumesInOrder_takeInput (s : State) (r : Reg) : ConsumesInOrder s (s.takeInput r) := by
  rcases s.inputByte_cases with ⟨b, -, hb, e⟩ | ⟨-, e⟩ | ⟨-, -, -, e⟩
  · obtain ⟨hget, hinpos, heos, -⟩ := State.takeInput_of_byte (r := r) e
    exact ⟨s.takeInput_input r, fun he => heos.trans he, .inr ⟨hinpos, b, r, hb, hget⟩⟩
  · obtain ⟨-, hinpos, heos, -⟩ := State.takeInput_of_endOfStream (r := r) e
    exact ⟨s.takeInput_input r, fun _ => heos, .inl hinpos⟩
  · rw [State.takeInput_notYet r e]
    exact ⟨rfl, id, .inl rfl⟩

theorem Effect.consumesInOrder {i : Instr} {s t : State} (h : Effect i s t) : ConsumesInOrder s t := by
  cases h with
  | input rc => exact s.consumesInOrder_takeInput rc
  | raised | unmoved | register | halted | output | stored | unmapped | mapped | jumped | loaded =>
    exact ⟨rfl, id, .inl rfl⟩

/-- Settles O45: only the input cycle, begun by an instruction or resumed, consumes input. -/
theorem inputIsConsumedInOrder : Obligations.InputIsConsumedInOrder := by
  intro s t hstep
  have order : ConsumesInOrder s t := by
    cases step_effect hstep with
    | resumed r => exact s.consumesInOrder_takeInput r
    | executed w i _ _ _ he => exact (exec_effect he).consumesInOrder
    | terminal | fetchFault | badOpcode => exact .of_ioSame ⟨rfl, rfl, rfl, rfl⟩
  exact order

/-- The state with what the environment has presented on IN replaced. -/
def State.setInput (s : State) (input : InStream) : State := { s with input := input }

/-- An instruction whose operation does not see the input ends alike whatever is presented. -/
theorem State.finish_setInput {α : Type} {s t : State} {input : InStream} {e : Except Cause α} {f f' : α → State}
    (hf : ∀ a, f' a = (f a).setInput input) (h : s.finish (e.map f) = .next t) :
    (s.setInput input).finish (e.map f') = .next (t.setInput input) := by
  rcases State.finish_map_cases h with ⟨a, rfl, rfl⟩ | ⟨c, rfl, rfl⟩
  · exact congrArg Host.Outcome.next (hf a)
  · rfl

/-- Settles O46: no instruction but `in` looks at the stream, and each one's writes commute with replacing it. -/
theorem onlyInDependsOnInput : Obligations.OnlyInDependsOnInput := by
  intro i s t input hin h
  show exec i (s.setInput input) = .next (t.setInput input)
  cases i with
  | inp rc => exact absurd rfl (hin rc)
  | cmov ra rb rc =>
    by_cases hc : s.get rc = 0#32
    · cases (exec_cmov_of_eq hc ra rb).symm.trans h
      exact exec_cmov_of_eq (s := s.setInput input) hc ra rb
    · cases (exec_cmov_of_ne hc ra rb).symm.trans h
      exact exec_cmov_of_ne (s := s.setInput input) hc ra rb
  | add | mul | nand | halt | loadi => cases h; rfl
  | sload | sstore | div | map | unmap | out | loadp => exact State.finish_setInput (fun _ => rfl) h

/-! ### The word the next cycle runs (R62, R90) -/

/-- Settles O47: after the store, 0:(ip + 1) reads the word stored, so the next cycle fetches it. -/
theorem storeIsSeenByNextFetch : Obligations.StoreIsSeenByNextFetch := by
  intro s w ra rb rc j hm hf hd hra hrb hv hj
  obtain ⟨hr, hw, -⟩ := id hf
  rcases s.mem.write_cases 0#32 (s.ip + 1#32) (s.get rc) with ⟨-, hwrite⟩ | ⟨hn, -⟩
  · have stores := exec_sstore_of_write (s := s.advance) (ra := ra) (rb := rb) (rc := rc)
      (by simpa [hra, hrb] using hwrite)
    have next : Fetches (s.advance.setMem _) (s.get rc) := ⟨hr, hw, Memory.read_write_self hm hwrite⟩
    exact ⟨_, (step_of_decode hf hd).trans stores, step_of_decode next hj⟩
  · exact absurd hv hn

theorem Segment.len_placeWord {a : Word} (ha : a ≠ 0xFFFFFFFF#32) (g : Segment) (w : Word) :
    a < (g.placeWord a w).len := by
  by_cases h : a < g.len
  · simp [Segment.placeWord, h]
  · have hne : a.toNat ≠ 4294967295 := fun e => ha (BitVec.eq_of_toNat_eq e)
    have hlen : (g.placeWord a w).len = a + 1#32 := by simp [Segment.placeWord, h]
    rw [hlen]
    bv_omega

/-- The word placed is read back: only the order of the offsets matters, not the length. -/
theorem Segment.word_placeWord {g : Segment} (hg : g.Wf) (a w : Word) : (g.placeWord a w).word a = w := by
  obtain ⟨sorted, -⟩ := hg
  exact cellsRead_cellsWrite_self _ _ _ sorted

theorem Memory.read_placeWord {m : Memory} (hm : m.Wf) {a : Word} (ha : a ≠ 0xFFFFFFFF#32) (w : Word) :
    (m.placeWord a w).read 0#32 a = .ok w := by
  obtain ⟨g, hg, hseg⟩ : ∃ g : Segment, g.Wf ∧ (m.placeWord a w).segment 0#32 = g.placeWord a w := by
    cases hs : m.seg with
    | nil => exact ⟨Segment.empty, Segment.empty_wf, by simp [Memory.placeWord, hs]⟩
    | cons g rest => exact ⟨g, hm.2.2.1 g (by simp [hs]), by simp [Memory.placeWord, hs]⟩
  have valid : (m.placeWord a w).Valid 0#32 a := by
    refine ⟨Memory.mapped_zero (Memory.placeWord_wf hm ha w), ?_⟩
    rw [Memory.len, hseg]
    exact g.len_placeWord ha w
  rw [Memory.read_of_valid valid, hseg, Segment.word_placeWord hg]

theorem decode_tableWord {nbits w : Nat} {i : Instr} (h : decodeTableWord nbits w = some i) :
    decode (tableWord nbits w) = .ok i := by
  unfold decodeTableWord at h
  split at h <;> cases h
  assumption

/-- Settles O49: the placed word is fetched by the next cycle. -/
theorem placedWordRunsNext : Obligations.PlacedWordRunsNext :=
  fun _ _ _ _ hm ha h => step_of_decode ⟨rfl, rfl, Memory.read_placeWord hm ha _⟩ (decode_tableWord h)

/-! ### STATUS (R11, R141) -/

theorem Cause.code_injective {c c' : Cause} (h : c.code = c'.code) : c = c' := by
  revert h; cases c <;> cases c' <;> decide

/-- Settles O48: STATUS follows the run state case by case, and no two causes share a code. -/
theorem statusShowsRunState : Obligations.StatusShowsRunState := by
  refine ⟨fun s => ?_, rfl, rfl, rfl, rfl, rfl, rfl, rfl⟩
  cases hr : s.run with
  | running | halted => simp [State.status, hr]
  | fatal c =>
    have codes : ∀ c', c = c' ↔ c.code = c'.code := fun _ => ⟨congrArg _, Cause.code_injective⟩
    simp [State.status, hr, codes]

end Sys2Proof.Machine
end

section
/-! PROOFS. The statements of 42_segments.md and 44_control.md: `map`, `unmap` and `loadp` (R47 to R53, R110, R111,
R131). -/

namespace Sys2Proof.Machine

/-! ### Reads of a segment -/

/-- Two mapped ids with the same segment answer every read alike. -/
theorem Memory.read_eq_of_segment_eq {m m' : Memory} {i j : Word} (hi : m.Mapped i) (hj : m'.Mapped j)
    (h : m'.segment j = m.segment i) (o : Word) : m'.read j o = m.read i o := by
  have valid : m'.Valid j o ↔ m.Valid i o := by
    rw [Memory.Valid, Memory.Valid, Memory.len, Memory.len, h]
    exact and_congr_left' (iff_of_true hj hi)
  simp only [Memory.read, valid, h]

/-- An id with the same mapping and the same segment before and after answers every read as before. -/
theorem Memory.read_same {m m' : Memory} {j : Word} (hmap : m'.Mapped j ↔ m.Mapped j)
    (h : m'.segment j = m.segment j) (o : Word) : m'.read j o = m.read j o :=
  Memory.read_congr hmap (Memory.len_congr h) fun _ => congrArg (Segment.word · o) h

theorem Memory.read_zeros {m : Memory} {i n o : Word} (hi : m.Mapped i) (h : m.segment i = Segment.zeros n)
    (ho : o < n) : m.read i o = .ok 0#32 := by
  have valid : m.Valid i o := ⟨hi, by rwa [Memory.len, h]⟩
  rw [Memory.read_of_valid valid, h, Segment.word_zeros]

/-! ### unmap (R52, R111) -/

theorem exec_unmap_of_deallocate {s : State} {rc : Reg} {m : Memory} (h : s.mem.deallocate (s.get rc) = .ok m) :
    exec (.unmap rc) s = .next (s.setMem m) := by
  simp only [exec, execUnmap, h]
  rfl

theorem exec_unmap_of_deallocate_error {s : State} {rc : Reg} {c : Cause}
    (h : s.mem.deallocate (s.get rc) = .error c) : exec (.unmap rc) s = .next (s.raise c) := by
  simp only [exec, execUnmap, h]
  rfl

theorem Memory.deallocate_of_mapped {m : Memory} {i : Word} (h0 : i ≠ 0#32) (hi : m.Mapped i) :
    ∃ m', m.deallocate i = .ok m' :=
  ⟨_, if_neg fun h => h.elim h0 (absurd hi)⟩

theorem Memory.deallocate_of_not_mapped {m : Memory} {i : Word} (h : i = 0#32 ∨ ¬ m.Mapped i) :
    m.deallocate i = .error .invalidUnmap :=
  if_pos h

theorem Memory.free_deallocate {m m' : Memory} {i : Word} (h : m.deallocate i = .ok m') : m'.free = i :: m.free := by
  obtain ⟨-, -, rfl⟩ := Memory.deallocate_ok h
  rfl

theorem Memory.segment_deallocate_self {m m' : Memory} {i : Word} (h : m.deallocate i = .ok m') :
    m'.segment i = Segment.empty := by
  obtain ⟨-, ⟨hi, -⟩, rfl⟩ := Memory.deallocate_ok h
  exact Memory.segment_setSegment_self Segment.empty hi

theorem Memory.not_mapped_deallocate {m m' : Memory} {i : Word} (h : m.deallocate i = .ok m') : ¬ m'.Mapped i := by
  intro hmap
  obtain ⟨-, hfree⟩ := hmap
  rw [Memory.free_deallocate h] at hfree
  exact hfree List.mem_cons_self

/-- Settles O28: the id released is on the free list with an empty segment, so no address in it is valid. -/
theorem unmapReleasesSegmentOrFatal : Obligations.UnmapReleasesSegmentOrFatal := by
  intro rc s
  refine ⟨fun h0 hmap => ?_, fun hbad => ?_⟩
  · obtain ⟨m, e⟩ := Memory.deallocate_of_mapped h0 hmap
    have released := Memory.not_mapped_deallocate e
    have other : ∀ j, j ≠ s.get rc → m.len j = s.mem.len j ∧ ∀ o, m.read j o = s.mem.read j o := fun j hj =>
      have hseg := Memory.segment_deallocate e hj
      ⟨Memory.len_congr hseg, Memory.read_same (Memory.mapped_deallocate e hj) hseg⟩
    exact ⟨_, exec_unmap_of_deallocate e, released, congrArg Segment.len (Memory.segment_deallocate_self e),
      fun _ => Memory.read_of_not_valid fun hv => released hv.1, Memory.free_deallocate e, Memory.length_deallocate e,
      other, fun _ => rfl, rfl, ⟨rfl, rfl, rfl⟩, rfl, rfl, rfl, rfl⟩
  · exact ⟨_, exec_unmap_of_deallocate_error (Memory.deallocate_of_not_mapped hbad), s.stoppedBy_raise .invalidUnmap⟩

/-! ### map (R47, R49, R110) -/

theorem exec_map_of_allocate {s : State} {rc : Reg} {k : Word} {m : Memory}
    (h : s.mem.allocate s.limits (s.get rc) = .ok (k, m)) (rb : Reg) :
    exec (.map rb rc) s = .next ((s.setMem m).setReg rb k) := by
  simp only [exec, execMap, h]
  rfl

theorem exec_map_of_allocate_error {s : State} {rc : Reg} {c : Cause}
    (h : s.mem.allocate s.limits (s.get rc) = .error c) (rb : Reg) : exec (.map rb rc) s = .next (s.raise c) := by
  simp only [exec, execMap, h]
  rfl

theorem Limits.exceededBy_eq_true {l : Limits} {n : Nat} :
    Limits.exceededBy l n = true ↔ ∃ c, l.memCapacity = some c ∧ c < n := by
  unfold Limits.exceededBy
  cases l.memCapacity <;> simp

/-- R49: no id is left, or the words would exceed the capacity. -/
theorem Memory.exhausted_iff {m : Memory} {l : Limits} {n : Word} :
    m.exhausted l n = true ↔ (m.free = [] ∧ l.maxSegments ≤ m.seg.length) ∨
      ∃ c, l.memCapacity = some c ∧ c < m.totalWords + n.toNat := by
  rw [Memory.exhausted, Bool.or_eq_true, Limits.exceededBy_eq_true, Bool.and_eq_true, List.isEmpty_iff,
    decide_eq_true_iff]

theorem Memory.allocate_of_exhausted {m : Memory} {l : Limits} {n : Word} (h : m.exhausted l n = true) :
    m.allocate l n = .error .resourceExhausted :=
  if_pos h

theorem Memory.allocate_of_not_exhausted {m : Memory} {l : Limits} {n : Word} (h : ¬ m.exhausted l n = true) :
    ∃ k m', m.allocate l n = .ok (k, m') := by
  rcases m.allocate_cases l n with ⟨hx, -⟩ | ⟨-, k, _, -, e⟩ | ⟨-, -, e⟩
  · exact absurd hx h
  · exact ⟨k, _, e⟩
  · exact ⟨_, _, e⟩

/-- With an empty free list there is an entry left for the new id, which therefore fits a word. -/
theorem Memory.length_lt_of_allocate {m m' : Memory} {l : Limits} {n k : Word} (hl : l.Legal)
    (h : m.allocate l n = .ok (k, m')) (hf : m.free = []) : m.seg.length < 2 ^ 32 := by
  obtain ⟨hx, -⟩ := Memory.allocate_ok h
  have room : ¬ l.maxSegments ≤ m.seg.length := fun hle =>
    Bool.false_ne_true (hx.symm.trans (Memory.exhausted_iff.2 (.inl ⟨hf, hle⟩)))
  have := hl.2
  omega

/-- Where the id of an allocation comes from: the top of the free list, or, if that is empty, the end of the table. -/
theorem Memory.allocate_id {m m' : Memory} {l : Limits} {n k : Word} (hl : l.Legal)
    (h : m.allocate l n = .ok (k, m')) :
    (m.free = k :: m'.free ∧ m'.seg.length = m.seg.length) ∨
      (m.free = [] ∧ m'.free = [] ∧ k.toNat = m.seg.length ∧ m'.seg.length = m.seg.length + 1) := by
  rcases Memory.allocate_ok h with ⟨-, ⟨rest, hf, rfl⟩ | ⟨hf, rfl, rfl⟩⟩
  · exact .inl ⟨hf, List.length_set⟩
  · exact .inr ⟨hf, rfl, Nat.mod_eq_of_lt (Memory.length_lt_of_allocate hl h hf), by simp⟩

theorem Memory.not_mapped_allocated {m m' : Memory} {l : Limits} {n k : Word} (hl : l.Legal)
    (h : m.allocate l n = .ok (k, m')) : ¬ m.Mapped k := by
  rintro ⟨hlt, hfree⟩
  rcases Memory.allocate_id hl h with ⟨hf, -⟩ | ⟨-, -, hk, -⟩
  · exact hfree (hf ▸ List.mem_cons_self)
  · exact absurd hk hlt.ne

theorem Memory.allocated_ne_zero {m m' : Memory} (hm : m.Wf) {l : Limits} {n k : Word} (hl : l.Legal)
    (h : m.allocate l n = .ok (k, m')) : k ≠ 0#32 := by
  rintro rfl
  exact Memory.not_mapped_allocated hl h (Memory.mapped_zero hm)

theorem Memory.mapped_allocated {m m' : Memory} (hm : m.Wf) {l : Limits} {n k : Word} (hl : l.Legal)
    (h : m.allocate l n = .ok (k, m')) : m'.Mapped k := by
  rcases Memory.allocate_id hl h with ⟨hf, hlen⟩ | ⟨-, hf', hk, hlen⟩
  · have entry := (Memory.free_entry hm (hf ▸ List.mem_cons_self)).2
    refine ⟨hlen ▸ (List.getElem?_eq_some_iff.1 entry).1, ?_⟩
    obtain ⟨-, -, -, nodup, -⟩ := hm
    exact (List.nodup_cons.1 (hf ▸ nodup)).1
  · exact ⟨by omega, hf' ▸ List.not_mem_nil⟩

theorem Memory.segment_allocated {m m' : Memory} (hm : m.Wf) {l : Limits} {n k : Word} (hl : l.Legal)
    (h : m.allocate l n = .ok (k, m')) : m'.segment k = Segment.zeros n := by
  have hmap := Memory.mapped_allocated hm hl h
  have hid := Memory.allocate_id hl h
  rcases Memory.allocate_ok h with ⟨-, ⟨rest, -, rfl⟩ | ⟨hf, -, rfl⟩⟩
  · exact Memory.segment_setSegment_self (m := m) (Segment.zeros n) (by simpa using hmap.1)
  · have hk : k.toNat = m.seg.length := by simpa [hf] using hid
    simp [Memory.segment, hk]

/-- Every id but the one allocated keeps its segment. -/
theorem Memory.segment_allocate_other {m m' : Memory} {l : Limits} {n k j : Word} (hl : l.Legal)
    (h : m.allocate l n = .ok (k, m')) (hne : j ≠ k) : m'.segment j = m.segment j := by
  have hid := Memory.allocate_id hl h
  rcases Memory.allocate_ok h with ⟨-, ⟨rest, -, rfl⟩ | ⟨hf, -, rfl⟩⟩
  · exact m.segment_setSegment_other (Segment.zeros n) hne
  · have hk : k.toNat = m.seg.length := by simpa [hf] using hid
    have hj : j.toNat ≠ m.seg.length := hk ▸ toNat_ne hne
    rcases hj.lt_or_gt with hlt | hgt
    · simp only [Memory.segment, List.getD_eq_getElem?_getD, List.getElem?_append_left hlt]
    · have outside : (m.seg ++ [Segment.zeros n]).length ≤ j.toNat := by rw [List.length_append]; exact hgt
      simp only [Memory.segment, List.getD_eq_default _ _ outside, List.getD_eq_default _ _ hgt.le]

theorem Memory.mapped_allocate_other {m m' : Memory} {l : Limits} {n k j : Word} (hl : l.Legal)
    (h : m.allocate l n = .ok (k, m')) (hne : j ≠ k) : m'.Mapped j ↔ m.Mapped j := by
  rcases Memory.allocate_id hl h with ⟨hf, hlen⟩ | ⟨hf, hf', hk, hlen⟩
  · simp [Memory.Mapped, hf, hlen, hne]
  · have hj : j.toNat ≠ m.seg.length := hk ▸ toNat_ne hne
    simp only [Memory.Mapped, hf, hf', hlen, List.not_mem_nil, not_false_eq_true, and_true]
    omega

/-- Settles O27: the allocation fails exactly where R49 says; where it succeeds, the id was not mapped, and it is the
only one whose mapping or segment changes. -/
theorem mapAllocatesZeroedSegment : Obligations.MapAllocatesZeroedSegment := by
  intro rb rc s hm hl
  refine ⟨fun hid hcap => ?_, fun hx => ?_⟩
  · have room : ¬ s.mem.exhausted s.limits (s.get rc) = true := by
      rw [Memory.exhausted_iff]
      rintro (⟨hf, hle⟩ | ⟨c, hc, hlt⟩)
      · exact absurd (hid hf) (Nat.not_lt.2 hle)
      · exact absurd (hcap c hc) (Nat.not_le.2 hlt)
    obtain ⟨k, m, e⟩ := Memory.allocate_of_not_exhausted room
    refine ⟨_, exec_map_of_allocate e rb, ?_⟩
    have zeros := Memory.segment_allocated hm hl e
    have mapped := Memory.mapped_allocated hm hl e
    have other : ∀ j, j ≠ k → (m.Mapped j ↔ s.mem.Mapped j) ∧ m.len j = s.mem.len j ∧
        ∀ o, m.read j o = s.mem.read j o := fun j hj =>
      have hmap := Memory.mapped_allocate_other hl e hj
      have hseg := Memory.segment_allocate_other hl e hj
      ⟨hmap, Memory.len_congr hseg, Memory.read_same hmap hseg⟩
    rw [State.get_setReg_self]
    exact ⟨⟨Memory.allocated_ne_zero hm hl e, Memory.not_mapped_allocated hl e, mapped⟩,
      ⟨congrArg Segment.len zeros, fun _ => Memory.read_zeros mapped zeros⟩, other, Memory.allocate_id hl e,
      fun _ hq => State.get_setReg_other _ _ hq, rfl, ⟨rfl, rfl, rfl⟩, rfl, rfl, rfl, rfl⟩
  · have fails := Memory.allocate_of_exhausted (Memory.exhausted_iff.2 hx)
    exact ⟨_, exec_map_of_allocate_error fails rb, s.stoppedBy_raise .resourceExhausted⟩

/-- Settles O31: the id released is the top of the free list, from which the allocation takes it, with all words 0. -/
theorem lastUnmappedIdIsReusedFirst : Obligations.LastUnmappedIdIsReusedFirst := by
  intro ra rb rc s hcap h0 hmap
  obtain ⟨m, e⟩ := Memory.deallocate_of_mapped h0 hmap
  obtain ⟨hlt, hfree⟩ := hmap
  have room : ¬ m.exhausted s.limits (s.get rc) = true := by
    rw [Memory.exhausted_iff, Memory.free_deallocate e, hcap]
    simp
  obtain ⟨k, m', ea⟩ := Memory.allocate_of_not_exhausted room
  rcases Memory.allocate_ok ea with ⟨-, ⟨rest, hf, rfl⟩ | ⟨hf, -⟩⟩
  · obtain ⟨rfl, rfl⟩ := List.cons.inj ((Memory.free_deallocate e).symm.trans hf)
    have entry : (s.get ra).toNat < m.seg.length := (Memory.length_deallocate e).symm ▸ hlt
    refine ⟨_, _, exec_unmap_of_deallocate e, exec_map_of_allocate (s := s.setMem m) ea rb, State.get_setReg_self _ rb _,
      rfl, fun o ho => Memory.read_zeros ⟨?_, hfree⟩ ?_ ho⟩
    · rwa [State.setReg_mem, State.setMem_mem, List.length_set]
    · exact Memory.segment_setSegment_self (m := m) (Segment.zeros (s.get rc)) entry
  · exact absurd ((Memory.free_deallocate e).symm.trans hf) (List.cons_ne_nil _ _)

/-! ### loadp (R53, R131) -/

theorem exec_loadp_of_eq {s : State} {rb : Reg} (h : s.get rb = 0#32) (rc : Reg) :
    exec (.loadp rb rc) s = .next (s.setIp (s.get rc)) := by
  simp only [exec, execLoadp, loadedMemory, if_neg (not_not.2 h)]
  rfl

theorem exec_loadp_of_loadProgram {s : State} {rb : Reg} {m : Memory} (h0 : s.get rb ≠ 0#32)
    (h : s.mem.loadProgram s.limits (s.get rb) = .ok m) (rc : Reg) :
    exec (.loadp rb rc) s = .next ((s.setMem m).setIp (s.get rc)) := by
  simp only [exec, execLoadp, loadedMemory, if_pos h0, h]
  rfl

theorem exec_loadp_of_loadProgram_error {s : State} {rb : Reg} {c : Cause} (h0 : s.get rb ≠ 0#32)
    (h : s.mem.loadProgram s.limits (s.get rb) = .error c) (rc : Reg) :
    exec (.loadp rb rc) s = .next (s.raise c) := by
  simp only [exec, execLoadp, loadedMemory, if_pos h0, h]
  rfl

/-- The words held after the copy: those before, with the length of segment 0 replaced by that of segment `i`. -/
theorem Memory.totalWords_copy {m : Memory} (hm : m.Wf) (i : Word) :
    (m.setSegment 0#32 (m.segment i)).totalWords + (m.len 0#32).toNat = m.totalWords + (m.len i).toNat :=
  m.totalWords_setSegment 0#32 (m.segment i) (Memory.mapped_zero hm).1

/-- The copy exceeds the capacity exactly where R49 says of the words held after the replacement (log entry 10). -/
theorem Memory.copy_exceeds_iff {m : Memory} (hm : m.Wf) (l : Limits) (i : Word) :
    Limits.exceededBy l (m.setSegment 0#32 (m.segment i)).totalWords = true ↔
      ∃ c, l.memCapacity = some c ∧ c + (m.len 0#32).toNat < m.totalWords + (m.len i).toNat := by
  rw [Limits.exceededBy_eq_true, ← Memory.totalWords_copy hm i]
  simp only [Nat.add_lt_add_iff_right]

/-- Settles O35: the four clauses are the outcomes of LoadProgram, and the copy replaces segment 0 alone. -/
theorem loadpCopiesAndJumps : Obligations.LoadpCopiesAndJumps := by
  intro rb rc s hm
  have zero : s.mem.Mapped 0#32 := Memory.mapped_zero hm
  refine ⟨fun h0 => ?_, fun h0 hmap hcap => ?_, fun h0 hun => ?_, fun h0 hmap hx => ?_⟩
  · exact ⟨_, exec_loadp_of_eq h0 rc, rfl, .of_mem_eq rfl, fun _ => rfl, ⟨rfl, rfl, rfl⟩, rfl, rfl, rfl, rfl⟩
  · have room : ¬ Limits.exceededBy s.limits (s.mem.setSegment 0#32 (s.mem.segment (s.get rb))).totalWords = true := by
      rw [Memory.copy_exceeds_iff hm]
      rintro ⟨c, hc, hlt⟩
      exact absurd (hcap c hc) (Nat.not_le.2 hlt)
    have loads : s.mem.loadProgram s.limits (s.get rb) = .ok (s.mem.setSegment 0#32 (s.mem.segment (s.get rb))) := by
      rw [Memory.loadProgram, if_neg (not_not.2 hmap), if_neg room]
    have copied := Memory.segment_setSegment_self (s.mem.segment (s.get rb)) zero.1
    have other : ∀ j, j ≠ 0#32 → Memory.segment _ j = s.mem.segment j := fun _ =>
      s.mem.segment_setSegment_other (s.mem.segment (s.get rb))
    have mapped := fun j => s.mem.mapped_setSegment 0#32 j (s.mem.segment (s.get rb))
    exact ⟨_, exec_loadp_of_loadProgram h0 loads rc, rfl, congrArg Segment.len copied,
      Memory.read_eq_of_segment_eq hmap ((mapped _).2 zero) copied,
      fun j hj => ⟨Memory.len_congr (other j hj), Memory.read_same (mapped j) (other j hj)⟩, rfl,
      Memory.setSegment_length _ _ _, fun _ => rfl, ⟨rfl, rfl, rfl⟩, rfl, rfl, rfl, rfl⟩
  · have fails : s.mem.loadProgram s.limits (s.get rb) = .error .invalidAccess := by
      rw [Memory.loadProgram, if_pos hun]
    exact ⟨_, exec_loadp_of_loadProgram_error h0 fails rc, s.stoppedBy_raise .invalidAccess⟩
  · have fails : s.mem.loadProgram s.limits (s.get rb) = .error .resourceExhausted := by
      rw [Memory.loadProgram, if_neg (not_not.2 hmap), if_pos ((Memory.copy_exceeds_iff hm _ _).2 hx)]
    exact ⟨_, exec_loadp_of_loadProgram_error h0 fails rc, s.stoppedBy_raise .resourceExhausted⟩

end Sys2Proof.Machine
end
